-- ==== Sys2Proof/Word.lean ====
section
/-! DEFINITION. The words of the engine: bytes, 16-bit addresses and the 64-bit clock (spec 00 R5). -/

namespace Sys2Proof

/-- One byte: a register, a flags value or a cell of Memory (00 R5). -/
abbrev Byte := BitVec 8

/-- A 16-bit value: the program counter or an absolute address (00 R5). -/
abbrev Addr := BitVec 16

/-- The value of the `clock` counter (10 R22). -/
abbrev ClockWord := BitVec 64

end Sys2Proof
end

