-- ==== Sys2Proof/Syntax.lean ====
section
/-! DEFINITION. The instructions of the engine (spec 30 R58): one constructor per listed opcode and one, `nop`,
for the 237 rows `NOP*`. Operands stand as the instruction stream holds them (30 R52 to R54, R56). -/

namespace Sys2Proof

/-- The instruction set (30 R58). -/
inductive Instr where
  /-- `LDA #`, opcode A9, load-accumulator-immediate (41 R90). -/
  | ldaImm (v : Byte)
  /-- `LDA abs`, opcode AD, load-accumulator-absolute (41 R91). -/
  | ldaAbs (ea : Addr)
  /-- `LDX #`, opcode A2, load-X-immediate (41 R92). -/
  | ldx (v : Byte)
  /-- `LDY #`, opcode A0, load-Y-immediate (41 R93). -/
  | ldy (v : Byte)
  /-- `STA abs`, opcode 8D, store-absolute (41 R94). -/
  | sta (ea : Addr)
  /-- `TAX`, opcode AA, transfer-accumulator-to-X (42 R95). -/
  | tax
  /-- `TYA`, opcode 98, transfer-Y-to-accumulator (42 R96). -/
  | tya
  /-- `TXS`, opcode 9A, transfer-X-to-stackptr (42 R97). -/
  | txs
  /-- `ADC #`, opcode 69, add-immediate (43 R100). -/
  | adc (v : Byte)
  /-- `EOR #`, opcode 49, exclusive-or-immediate (43 R101). -/
  | eor (v : Byte)
  /-- `CMP #`, opcode C9, compare-immediate (43 R102). -/
  | cmp (v : Byte)
  /-- `DEX`, opcode CA, decrement-X (43 R103). -/
  | dex
  /-- `DEY`, opcode 88, decrement-Y (43 R104). -/
  | dey
  /-- `CLC`, opcode 18, clear-carry (44 R107). -/
  | clc
  /-- `CLD`, opcode D8, clear-decimal (44 R108). -/
  | cld
  /-- `BPL`, opcode 10, branch-if-positive; `off` is the offset byte (45 R110). -/
  | bpl (off : Byte)
  /-- `BNE`, opcode D0, branch-if-not-equal (45 R111). -/
  | bne (off : Byte)
  /-- `BEQ`, opcode F0, branch-if-equal (45 R112). -/
  | beq (off : Byte)
  /-- `JMP abs`, opcode 4C, jump-absolute (45 R113). -/
  | jmp (ea : Addr)
  /-- `NOP*`: the default handler, with the unlisted opcode byte that selected it (40 R86). -/
  | nop (opcode : Byte)
deriving DecidableEq, Repr

/-- What one row of the opcode map selects: the format (30 R50 to R54) and, from the operand, the instruction. -/
inductive OpcodeEntry where
  /-- Format `IMPL`, 1 byte. -/
  | impl (i : Instr)
  /-- Format `IMM`, 2 bytes, an unsigned operand byte. -/
  | imm (make : Byte → Instr)
  /-- Format `REL`, 2 bytes, a two's-complement offset byte. -/
  | rel (make : Byte → Instr)
  /-- Format `ABS`, 3 bytes, a little-endian address. -/
  | abs (make : Addr → Instr)

/-- Why a byte list does not begin with a whole instruction. No byte value is a reason (30 R60): only a list
that ends too early is. -/
inductive DecodeError where
  /-- The list is empty: there is no opcode byte. -/
  | noOpcode
  /-- The list ends before the operand bytes of this opcode. -/
  | operandMissing (opcode : Byte)
deriving DecidableEq, Repr

end Sys2Proof
end

