-- ==== Sys2Proof/WellFormed.lean ====
section
/-! DEFINITION. Which terms of `Instr` are instructions of the machine. Operand widths are in the types; the one
check left is that `nop` carries an unlisted opcode (spec 30 R58, 40 R86). -/

namespace Sys2Proof

/-- The 19 opcode bytes with a handler of their own, in the order of 30 R58. -/
def listedOpcodes : List Byte :=
  [0x10, 0x18, 0x49, 0x4C, 0x69, 0x88, 0x8D, 0x98, 0x9A, 0xA0, 0xA2, 0xAA, 0xA9, 0xAD, 0xC9, 0xCA, 0xD0, 0xD8, 0xF0]

/-- Is this one of the 19 listed opcodes? -/
def isListed (op : Byte) : Bool := listedOpcodes.contains op

/-- An instruction is well formed unless it is `nop` over a listed opcode. -/
def Instr.wf : Instr → Bool
  | .nop op => !isListed op
  | .ldaImm _ => true
  | .ldaAbs _ => true
  | .ldx _ => true
  | .ldy _ => true
  | .sta _ => true
  | .tax => true
  | .tya => true
  | .txs => true
  | .adc _ => true
  | .eor _ => true
  | .cmp _ => true
  | .dex => true
  | .dey => true
  | .clc => true
  | .cld => true
  | .bpl _ => true
  | .bne _ => true
  | .beq _ => true
  | .jmp _ => true

end Sys2Proof
end

