-- ==== Sys2Proof/Decode.lean ====
section
/-! DEFINITION. The decoder and the encoder (spec 30). The opcode byte alone selects the row of the map (30 R55,
R57, R58); decoding is total, and the only rejections are byte lists that end too early (30 R60). -/

namespace Sys2Proof

/-- The address `hi ++ lo`, that is `256 * hi + lo` (30 R56, 40 R75, 20 R36). -/
def absAddress (lo hi : Byte) : Addr := BitVec.ofNat 16 (256 * hi.toNat + lo.toNat)

/-- Bits 7 to 0 of an address: the byte at `pc + 1` (30 R54). -/
def lowByte (a : Addr) : Byte := BitVec.ofNat 8 a.toNat

/-- Bits 15 to 8 of an address: the byte at `pc + 2` (30 R54). -/
def highByte (a : Addr) : Byte := BitVec.ofNat 8 (a.toNat / 256)

/-- The opcode map (30 R58): every byte not named selects the default handler. -/
def opcodeMap (op : Byte) : OpcodeEntry :=
  match op with
  | 0x10#8 => .rel .bpl
  | 0x18#8 => .impl .clc
  | 0x49#8 => .imm .eor
  | 0x4C#8 => .abs .jmp
  | 0x69#8 => .imm .adc
  | 0x88#8 => .impl .dey
  | 0x8D#8 => .abs .sta
  | 0x98#8 => .impl .tya
  | 0x9A#8 => .impl .txs
  | 0xA0#8 => .imm .ldy
  | 0xA2#8 => .imm .ldx
  | 0xAA#8 => .impl .tax
  | 0xA9#8 => .imm .ldaImm
  | 0xAD#8 => .abs .ldaAbs
  | 0xC9#8 => .imm .cmp
  | 0xCA#8 => .impl .dex
  | 0xD0#8 => .rel .bne
  | 0xD8#8 => .impl .cld
  | 0xF0#8 => .rel .beq
  | other => .impl (.nop other)

/-- How many operand bytes follow the opcode (30 R57). -/
def operandCount (op : Byte) : Nat :=
  match opcodeMap op with
  | .impl _ => 0
  | .imm _ => 1
  | .rel _ => 1
  | .abs _ => 2

/-- Reads one instruction from the front of a byte list and gives it with the bytes after it (30 R50 to R57). -/
def decode : List Byte → Except DecodeError (Instr × List Byte)
  | [] => .error .noOpcode
  | op :: rest =>
    match opcodeMap op, rest with
    | .impl i, rest => .ok (i, rest)
    | .imm make, v :: rest => .ok (make v, rest)
    | .rel make, r :: rest => .ok (make r, rest)
    | .abs make, lo :: hi :: rest => .ok (make (absAddress lo hi), rest)
    | .imm _, [] => .error (.operandMissing op)
    | .rel _, [] => .error (.operandMissing op)
    | .abs _, [] => .error (.operandMissing op)
    | .abs _, [_] => .error (.operandMissing op)

/-- The opcode byte of an instruction (30 R58). -/
def opcodeOf : Instr → Byte
  | .ldaImm _ => 0xA9
  | .ldaAbs _ => 0xAD
  | .ldx _ => 0xA2
  | .ldy _ => 0xA0
  | .sta _ => 0x8D
  | .tax => 0xAA
  | .tya => 0x98
  | .txs => 0x9A
  | .adc _ => 0x69
  | .eor _ => 0x49
  | .cmp _ => 0xC9
  | .dex => 0xCA
  | .dey => 0x88
  | .clc => 0x18
  | .cld => 0xD8
  | .bpl _ => 0x10
  | .bne _ => 0xD0
  | .beq _ => 0xF0
  | .jmp _ => 0x4C
  | .nop op => op

/-- The operand bytes of an instruction, at increasing addresses (30 R51 to R54). -/
def operandBytes : Instr → List Byte
  | .ldaImm v => [v]
  | .ldaAbs ea => [lowByte ea, highByte ea]
  | .ldx v => [v]
  | .ldy v => [v]
  | .sta ea => [lowByte ea, highByte ea]
  | .tax => []
  | .tya => []
  | .txs => []
  | .adc v => [v]
  | .eor v => [v]
  | .cmp v => [v]
  | .dex => []
  | .dey => []
  | .clc => []
  | .cld => []
  | .bpl off => [off]
  | .bne off => [off]
  | .beq off => [off]
  | .jmp ea => [lowByte ea, highByte ea]
  | .nop _ => []

/-- The bytes of an instruction: the opcode, then the operand bytes (30 R50). -/
def encode (i : Instr) : List Byte := opcodeOf i :: operandBytes i

/-- The three bytes (the longest instruction) that hold an instruction word numbered as the opcode table numbers
it: the first byte is bits 7 to 0, and the bits at and above `nbits` are zero. -/
def tableBytes (nbits w : Nat) : List Byte :=
  [BitVec.ofNat 8 (w % 2 ^ nbits), BitVec.ofNat 8 (w % 2 ^ nbits / 256), BitVec.ofNat 8 (w % 2 ^ nbits / 65536)]

/-- The instruction the decoder reads from an instruction word of the opcode table. -/
def decodeTableWord (nbits w : Nat) : Option Instr :=
  match decode (tableBytes nbits w) with
  | .ok (i, _) => some i
  | .error _ => none

end Sys2Proof
end

