-- ==== Sys2Proof/Machine/Flags.lean ====
section
/-! DEFINITION. The status register's named bits and every way an instruction computes it (spec 10 R17 to R21,
40 R78, 43 R102, 44 R107, R108). -/

namespace Sys2Proof.Machine

/-- `C`, bit 0 (10 R18). -/
def flagC (f : Byte) : Bool := f.getLsbD 0

/-- `Z`, bit 1 (10 R19). -/
def flagZ (f : Byte) : Bool := f.getLsbD 1

/-- `N`, bit 7 (10 R20). -/
def flagN (f : Byte) : Bool := f.getLsbD 7

/-- The zero step of the shared flag rule: bit 1 is set or cleared every time (40 R78, conflict C6). -/
def applyZero (f v : Byte) : Byte := if v = 0x00 then f ||| 0x02 else f &&& 0xFD

/-- The negative step of the shared flag rule: bit 7 is set, never cleared (40 R78, decision D1; log 6). -/
def applyNegative (f v : Byte) : Byte := if v.getLsbD 7 then f ||| 0x80 else f

/-- `applyFlags(f, v)`, the shared flag rule (40 R78). -/
def applyFlags (f v : Byte) : Byte := applyNegative (applyZero f v) v

/-- `flags[0] <- c` (43 R102). -/
def assignCarry (f : Byte) (c : Bool) : Byte := if c then f ||| 0x01 else f &&& 0xFE

/-- The flags after a compare of `a` with `v`: the carry is assigned `a > v`, unsigned and strict, and the shared
rule runs on the wrapped difference (43 R102, decisions D2 and D6, conflict C2; log 7). -/
def compareFlags (f a v : Byte) : Byte := applyFlags (assignCarry f (decide (v.toNat < a.toNat))) (a - v)

/-- `CLC`: bit 0 is cleared (44 R107). -/
def clearCarry (f : Byte) : Byte := f &&& 0xFE

/-- `CLD`: bits 2 to 7 are cleared (44 R108, decision D5, conflict C1; log 9). -/
def clearDecimal (f : Byte) : Byte := f &&& 0x03

end Sys2Proof.Machine
end

