-- ==== Sys2Proof/Machine/Operands.lean ====
section
/-! DEFINITION. What the operand of each form stands for (spec 30 R56, 40 R74 to R76). An immediate operand is the
byte itself (40 R74). -/

namespace Sys2Proof.Machine

/-- The offset byte read as a two's-complement number, -128 to 127 (40 R76). -/
def signedOffset (b : Byte) : Int := if b.getLsbD 7 then (b.toNat : Int) - 256 else b.toNat

/-- `target(off)`: `pc + 2` plus the offset, narrowed to its low 16 bits (40 R76, decision D13; log 12). -/
def branchTarget (pc : Addr) (off : Byte) : Addr := BitVec.ofInt 16 ((pc.toNat : Int) + 2 + signedOffset off)

/-- The index into Memory that an absolute operand names: the address as it stands (30 R56, 20 R41). -/
def dataAddress (ea : Addr) : Nat := ea.toNat

end Sys2Proof.Machine
end

