-- ==== Sys2Proof/Config.lean ====
section
/-! DEFINITION. What is fixed for the machine (spec 00 R5, R6) and the values the spec leaves open, which are
constants without a body: nothing in Lean can evaluate them, so a claim holds whatever they are. -/

namespace Sys2Proof.Config

/-- `ENTRY`: the program counter after a load, "a fixed convention, not configurable" (00 R5). -/
def entryAddress : Addr := 0x0400

/-- The least legal `MEM_SIZE` (00 R6). -/
def minMemSize : Nat := 0x0401

/-- The greatest legal `MEM_SIZE` (00 R6, decision D8; log 2). -/
def maxMemSize : Nat := 0x10000

/-- Free value: how far `COST(op)` of a listed opcode lies above 1. The range 1 to 5 is all the spec gives
(00 R6, 70 R146, decision D9; log 4). -/
opaque listedCostStep : Byte → Fin 5

/-- Free value: how far `DEFAULT_COST` lies above 1 (00 R6, decision D9; log 4). -/
opaque defaultCostStep : Fin 5

/-- `COST(op)` of a listed opcode: some number in 1 to 5 (00 R6). -/
def listedCost (op : Byte) : Nat := (listedCostStep op).val + 1

/-- `DEFAULT_COST`: some number in 1 to 5 (00 R6). -/
def defaultCost : Nat := defaultCostStep.val + 1

/-- Free value: the text `lastInstructionInfo` holds after a load, which 10 R27 leaves unspecified (log 5). -/
opaque resetInfo : String

/-- Free value: the text a completed step puts into `lastInstructionInfo` (10 R23, decision D18; log 5).
It may depend on the number of the draw and on everything in `context` (the instruction's bytes and the states
before and after it), so no two steps are forced to agree on it. -/
opaque instructionInfo : (draw : Nat) → (context : List Nat) → String

end Sys2Proof.Config
end

