-- ==== Sys2Proof/Machine/State.lean ====
section
/-! DEFINITION. The state of the engine (spec 10 R10): the record ProcessorState, Memory and the halted bit, with
the reasons a step can stop and the state after reset (10 R27, 70 R140). -/

namespace Sys2Proof.Machine

/-- Memory (10 R24, 20 R30): an array of `size` bytes. `cells` lists, at strictly rising addresses, the bytes that
differ from what an unlisted address reads as (`unlistedByte` in Ops; the form is `Memory.wf` in Ops). -/
structure Memory where
  /-- `MEM_SIZE`: the array's length, fixed by the load (00 R6; log 2). -/
  size : Nat
  /-- The listed bytes. -/
  cells : List Host.Cell
deriving DecidableEq, Repr

/-- The whole state (10 R10). -/
structure State where
  /-- `A`, the accumulator (10 R11). -/
  regA : Byte
  /-- `X`, index register X (10 R12). -/
  regX : Byte
  /-- `Y`, index register Y (10 R13). -/
  regY : Byte
  /-- `S`, the stack pointer (10 R14). -/
  regS : Byte
  /-- The status register: bit 0 carry, bit 1 zero, bit 7 negative (10 R17). -/
  flags : Byte
  /-- The program counter: between steps the address of the next opcode byte (10 R15). -/
  pc : Addr
  /-- The cost counter (10 R22). -/
  clock : ClockWord
  /-- `lastInstructionInfo`: an opaque text no rule reads (10 R23; log 5). -/
  lastInfo : String
  /-- The MODEL's own field: how many free texts have been drawn (log 5). -/
  infoDraws : Nat
  /-- Memory (10 R24). -/
  mem : Memory
  /-- The halted condition (10 R25, 60 R123). -/
  halted : Bool
deriving DecidableEq, Repr

/-- Why the machine stops (60 R120 to R125). -/
inductive Fault where
  /-- `AddressOutOfRange(addr)`, the engine's one exception (60 R120, R121): raised by `memRead` and `memWrite`
  (so by the fetch of an opcode or operand byte, by `LDA abs` and by `STA abs`) for an address at or beyond
  `MEM_SIZE`. It carries the address (60 R122). Safe: the spec gives no way to go on. -/
  | addressOutOfRange (addr : Nat)
  /-- A step asked of an engine that is already halted (40 R70, 60 R123). Raised by `step` alone, on the halted
  bit alone. Safe: a halted engine performs no step and is never a final state. -/
  | halted
deriving DecidableEq, Repr

/-- Why the model has no meaning for what it is asked to run. -/
inductive Refusal where
  /-- An arm of `exec` without a meaning, by its mnemonic. Raised by no arm of this model. Safe. -/
  | notModelled (mnemonic : String)
  /-- The fetched bytes do not decode. Raised by `step` only if the decoder rejects what the fetch returned, which
  no state brings about, since the fetch reads as many bytes as the opcode asks for (30 R57, R60). Safe. -/
  | undecodable (reason : DecodeError)
deriving DecidableEq, Repr

/-- The state after reset (10 R27, 70 R140). The registers' zeros are the spec's decision D7 (log 1); Memory is
that of a load of `0x10000` zero bytes, so nothing is listed (log 2, log 3); the text is free (log 5). A load of
any other image is `State.load`. -/
def State.reset : State where
  regA := 0x00
  regX := 0x00
  regY := 0x00
  regS := 0x00
  flags := 0x00
  pc := Config.entryAddress
  clock := 0
  lastInfo := Config.resetInfo
  infoDraws := 0
  mem := { size := Config.maxMemSize, cells := [] }
  halted := false

end Sys2Proof.Machine
end

