-- ==== Sys2Proof/Machine/Ops.lean ====
section
/-! DEFINITION. The named operations the meanings are written over: Memory and its two access primitives (spec 20
R33 to R35), the registers, the pc advance and the clock (40 R79, R80), and the one exception (60 R120 to R125). -/

namespace Sys2Proof.Machine

/-- What an address below `MEM_SIZE` that is not listed reads as (log 3). -/
def unlistedByte : Byte := 0x00

/-- The canonical form of Memory: addresses strictly rising and inside the array, no entry that an unlisted
address would read as. -/
abbrev Memory.wf (m : Memory) : Prop :=
  (m.cells.map Prod.fst).Pairwise (· < ·) ∧ ∀ c ∈ m.cells, c.1 < m.size ∧ c.2 ≠ unlistedByte

/-- The byte a list of cells holds at an address. -/
def cellsByte (a : Nat) : List Host.Cell → Byte
  | [] => unlistedByte
  | c :: rest => if c.1 = a then c.2 else cellsByte a rest

/-- Puts a cell before the first one at a higher address. -/
def cellsInsert (a : Nat) (v : Byte) : List Host.Cell → List Host.Cell
  | [] => [(a, v)]
  | c :: rest => if a < c.1 then (a, v) :: c :: rest else c :: cellsInsert a v rest

/-- Drops what is listed at an address. -/
def cellsErase (a : Nat) (cells : List Host.Cell) : List Host.Cell := cells.filter (fun c => c.1 != a)

/-- Makes a list of cells hold `v` at `a`, in canonical form. -/
def cellsPut (a : Nat) (v : Byte) (cells : List Host.Cell) : List Host.Cell :=
  if v = unlistedByte then cellsErase a cells else cellsInsert a v (cellsErase a cells)

/-- `mem[a]`, without the bounds check (the emitter's direct read, 40 R83). -/
def Memory.byteAt (m : Memory) (a : Nat) : Byte := cellsByte a m.cells

/-- `mem[a] <- v`, without the bounds check. -/
def Memory.put (m : Memory) (a : Nat) (v : Byte) : Memory := { m with cells := cellsPut a v m.cells }

/-- `MemRead(addr, 1)` (20 R34). -/
def memRead (s : State) (addr : Nat) : Except Fault Byte :=
  if s.mem.size ≤ addr then .error (.addressOutOfRange addr) else .ok (s.mem.byteAt addr)

/-- `MemWrite(addr, 1, v)` (20 R35). -/
def memWrite (s : State) (addr : Nat) (v : Byte) : Except Fault State :=
  if s.mem.size ≤ addr then .error (.addressOutOfRange addr) else .ok { s with mem := s.mem.put addr v }

/-- `A <- v` (10 R11). -/
def State.setA (s : State) (v : Byte) : State := { s with regA := v }

/-- `X <- v` (10 R12). -/
def State.setX (s : State) (v : Byte) : State := { s with regX := v }

/-- `Y <- v` (10 R13). -/
def State.setY (s : State) (v : Byte) : State := { s with regY := v }

/-- `S <- v` (10 R14). -/
def State.setS (s : State) (v : Byte) : State := { s with regS := v }

/-- `flags <- f` (10 R17). -/
def State.setFlags (s : State) (f : Byte) : State := { s with flags := f }

/-- `flags <- applyFlags(flags, v)` (40 R78). -/
def State.sharedRule (s : State) (v : Byte) : State := s.setFlags (applyFlags s.flags v)

/-- `pc <- target` (45 R114). -/
def State.setPc (s : State) (target : Addr) : State := { s with pc := target }

/-- `advance(n)`: `pc <- (pc + n) mod 2^16` (40 R79, decision D11; log 10). -/
def State.advance (s : State) (n : Nat) : State := s.setPc (s.pc + BitVec.ofNat 16 n)

/-- `COST(op)`: a listed opcode's own cost, else `DEFAULT_COST` (00 R6, 40 R80; log 4). -/
def cost (op : Byte) : Nat := if isListed op then Config.listedCost op else Config.defaultCost

/-- `tick(op)`: `clock <- (clock + COST(op)) mod 2^64` (40 R80, decision D10; log 17). -/
def State.tick (s : State) (op : Byte) : State := { s with clock := s.clock + BitVec.ofNat 64 (cost op) }

/-- The end of every handler that does not transfer control: `advance(n)`, then `tick(op)` (40 R79, R80). -/
def State.finish (s : State) (op : Byte) (n : Nat) : State := (s.advance n).tick op

/-- The end of every branch: to the target if the condition holds, else past the instruction's 2 bytes; then
`tick(op)` (45 R110 to R112). -/
def State.branch (s : State) (op : Byte) (taken : Bool) (off : Byte) : State :=
  (if taken then s.setPc (branchTarget s.pc off) else s.advance 2).tick op

/-- Taking the engine's one exception: it halts, and nothing else changes. There is no handler, no vector, no
saved register (60 R123, R124), and no return from it (60 R125). -/
def State.halt (s : State) : State := { s with halted := true }

/-- Everything a state holds but the diagnostic text and the halted bit, as plain numbers. -/
def stateNumbers (s : State) : List Nat :=
  [s.regA.toNat, s.regX.toNat, s.regY.toNat, s.regS.toNat, s.flags.toNat, s.pc.toNat, s.clock.toNat, s.mem.size,
    s.mem.cells.length] ++ s.mem.cells.flatMap (fun c => [c.1, c.2.toNat])

/-- What the free text of a step may depend on: the instruction's bytes and the states before and after it, so that
no two steps are forced to agree on it (log 5). -/
def infoContext (i : Instr) (before after : State) : List Nat :=
  (encode i).map BitVec.toNat ++ stateNumbers before ++ stateNumbers after

/-- A completed step replaces `lastInstructionInfo` by a new free value (10 R23, decision D18; log 5). -/
def State.noteInstruction (s : State) (i : Instr) (before : State) : State :=
  { s with
    lastInfo := Config.instructionInfo s.infoDraws (infoContext i before s)
    infoDraws := s.infoDraws + 1 }

/-- What a step adds around the handler's outcome: the diagnostic text of a completed instruction. -/
def retire (i : Instr) (before : State) : Host.Outcome State Fault Refusal → Host.Outcome State Fault Refusal
  | .next t => .next (t.noteInstruction i before)
  | .fault f => .fault f
  | .refused r => .refused r

end Sys2Proof.Machine
end

