-- ==== Sys2Proof/Machine/Alu.lean ====
section
/-! DEFINITION. Arithmetic and logic (spec 43 R100 to R106): 8-bit operands, results modulo 256. -/

namespace Sys2Proof.Machine

/-- `ADC #` (43 R100): no carry in or out (decision D3), wrapping (decision D4; log 8). -/
def execAdc (v : Byte) (s : State) : Host.Outcome State Fault Refusal :=
  .next (((s.setA (s.regA + v)).sharedRule (s.regA + v)).finish 0x69 2)

/-- `EOR #` (43 R101): no flag is touched. -/
def execEor (v : Byte) (s : State) : Host.Outcome State Fault Refusal :=
  .next ((s.setA (s.regA ^^^ v)).finish 0x49 2)

/-- `CMP #` (43 R102). -/
def execCmp (v : Byte) (s : State) : Host.Outcome State Fault Refusal :=
  .next ((s.setFlags (compareFlags s.flags s.regA v)).finish 0xC9 2)

/-- `DEX` (43 R103). -/
def execDex (s : State) : Host.Outcome State Fault Refusal :=
  .next (((s.setX (s.regX - 1)).sharedRule (s.regX - 1)).finish 0xCA 1)

/-- `DEY` (43 R104). -/
def execDey (s : State) : Host.Outcome State Fault Refusal :=
  .next (((s.setY (s.regY - 1)).sharedRule (s.regY - 1)).finish 0x88 1)

end Sys2Proof.Machine
end

