-- ==== Sys2Proof/Machine/Control.lean ====
section
/-! DEFINITION. Control transfer (spec 45 R110 to R114) and the default handler (40 R86). A target is not checked
when it is written into `pc`; the next fetch checks it (45 R114, decision D15; log 14). -/

namespace Sys2Proof.Machine

/-- `BPL` (45 R110): taken when `N` is clear. -/
def execBpl (off : Byte) (s : State) : Host.Outcome State Fault Refusal :=
  .next (s.branch 0x10 (!flagN s.flags) off)

/-- `BNE` (45 R111): taken when `Z` is clear. -/
def execBne (off : Byte) (s : State) : Host.Outcome State Fault Refusal :=
  .next (s.branch 0xD0 (!flagZ s.flags) off)

/-- `BEQ` (45 R112): taken when `Z` is set. -/
def execBeq (off : Byte) (s : State) : Host.Outcome State Fault Refusal :=
  .next (s.branch 0xF0 (flagZ s.flags) off)

/-- `JMP abs` (45 R113). -/
def execJmp (ea : Addr) (s : State) : Host.Outcome State Fault Refusal :=
  .next ((s.setPc ea).tick 0x4C)

/-- `NOP*` (40 R86): the pc advances by 1 and the clock by the opcode's cost. -/
def execNop (opcode : Byte) (s : State) : Host.Outcome State Fault Refusal :=
  .next (s.finish opcode 1)

end Sys2Proof.Machine
end

