-- ==== Sys2Proof/Machine/FlagOps.lean ====
section
/-! DEFINITION. The flag instructions (spec 44 R107, R108). -/

namespace Sys2Proof.Machine

/-- `CLC` (44 R107). -/
def execClc (s : State) : Host.Outcome State Fault Refusal :=
  .next ((s.setFlags (clearCarry s.flags)).finish 0x18 1)

/-- `CLD` (44 R108). -/
def execCld (s : State) : Host.Outcome State Fault Refusal :=
  .next ((s.setFlags (clearDecimal s.flags)).finish 0xD8 1)

end Sys2Proof.Machine
end

