-- ==== Sys2Proof/Machine/LoadStore.lean ====
section
/-! DEFINITION. Loads and the store (spec 41 R90 to R94). -/

namespace Sys2Proof.Machine

/-- `LDA #` (41 R90). -/
def execLdaImm (v : Byte) (s : State) : Host.Outcome State Fault Refusal :=
  .next (((s.setA v).sharedRule v).finish 0xA9 2)

/-- `LDA abs` (41 R91). -/
def execLdaAbs (ea : Addr) (s : State) : Host.Outcome State Fault Refusal :=
  match memRead s (dataAddress ea) with
  | .error f => .fault f
  | .ok v => .next (((s.setA v).sharedRule v).finish 0xAD 3)

/-- `LDX #` (41 R92). -/
def execLdx (v : Byte) (s : State) : Host.Outcome State Fault Refusal :=
  .next (((s.setX v).sharedRule v).finish 0xA2 2)

/-- `LDY #` (41 R93). -/
def execLdy (v : Byte) (s : State) : Host.Outcome State Fault Refusal :=
  .next (((s.setY v).sharedRule v).finish 0xA0 2)

/-- `STA abs` (41 R94). -/
def execSta (ea : Addr) (s : State) : Host.Outcome State Fault Refusal :=
  match memWrite s (dataAddress ea) s.regA with
  | .error f => .fault f
  | .ok t => .next (t.finish 0x8D 3)

end Sys2Proof.Machine
end

