-- ==== Sys2Proof/Machine/Transfer.lean ====
section
/-! DEFINITION. Register transfers (spec 42 R95 to R97). -/

namespace Sys2Proof.Machine

/-- `TAX` (42 R95): the shared rule on `A`, the move, the shared rule on `X` (decision D25; log 19). -/
def execTax (s : State) : Host.Outcome State Fault Refusal :=
  let moved := (s.sharedRule s.regA).setX s.regA
  .next ((moved.sharedRule moved.regX).finish 0xAA 1)

/-- `TYA` (42 R96). -/
def execTya (s : State) : Host.Outcome State Fault Refusal :=
  .next (((s.setA s.regY).sharedRule s.regY).finish 0x98 1)

/-- `TXS` (42 R97): here, unlike on a 6502, the flags are updated. -/
def execTxs (s : State) : Host.Outcome State Fault Refusal :=
  .next (((s.setS s.regX).sharedRule s.regX).finish 0x9A 1)

end Sys2Proof.Machine
end

