-- ==== Sys2Proof/Machine/Dispatch.lean ====
section
/-! DEFINITION. The dispatcher (spec 40 R73): one meaning per instruction. -/

namespace Sys2Proof.Machine

/-- Runs the handler an instruction selects (40 R73). -/
def exec (i : Instr) (s : State) : Host.Outcome State Fault Refusal :=
  match i with
  | .ldaImm v => Sys2Proof.Machine.execLdaImm v s
  | .ldaAbs ea => Sys2Proof.Machine.execLdaAbs ea s
  | .ldx v => Sys2Proof.Machine.execLdx v s
  | .ldy v => Sys2Proof.Machine.execLdy v s
  | .sta ea => Sys2Proof.Machine.execSta ea s
  | .tax => Sys2Proof.Machine.execTax s
  | .tya => Sys2Proof.Machine.execTya s
  | .txs => Sys2Proof.Machine.execTxs s
  | .adc v => Sys2Proof.Machine.execAdc v s
  | .eor v => Sys2Proof.Machine.execEor v s
  | .cmp v => Sys2Proof.Machine.execCmp v s
  | .dex => Sys2Proof.Machine.execDex s
  | .dey => Sys2Proof.Machine.execDey s
  | .clc => Sys2Proof.Machine.execClc s
  | .cld => Sys2Proof.Machine.execCld s
  | .bpl off => Sys2Proof.Machine.execBpl off s
  | .bne off => Sys2Proof.Machine.execBne off s
  | .beq off => Sys2Proof.Machine.execBeq off s
  | .jmp ea => Sys2Proof.Machine.execJmp ea s
  | .nop opcode => Sys2Proof.Machine.execNop opcode s

end Sys2Proof.Machine
end

