-- ==== Sys2Proof/Machine/Fetch.lean ====
section
/-! DEFINITION. Fetching an instruction's bytes (spec 40 R72, R74, R75, R77), and placing them where the next
step fetches. -/

namespace Sys2Proof.Machine

/-- `n` bytes at `addr`, `addr + 1`, …: one `MemRead` each, lowest address first; the first address out of range is
the one reported (40 R77, 60 R127; log 16). Addresses are natural numbers and do not wrap (decision D12; log 11). -/
def readBytes (s : State) (addr : Nat) : Nat → Except Fault (List Byte)
  | 0 => .ok []
  | n + 1 =>
    match memRead s addr with
    | .error f => .error f
    | .ok b =>
      match readBytes s (addr + 1) n with
      | .error f => .error f
      | .ok bs => .ok (b :: bs)

/-- The bytes of the instruction at `pc`: the opcode, then as many operand bytes as it has (40 R72, R74 to R76).
A branch's offset byte is read whether or not the branch is taken (decision D14; log 13). -/
def fetch (s : State) : Except Fault (List Byte) :=
  match memRead s s.pc.toNat with
  | .error f => .error f
  | .ok op =>
    match readBytes s (s.pc.toNat + 1) (operandCount op) with
    | .error f => .error f
    | .ok operands => .ok (op :: operands)

/-- Memory with room for addresses below `n`, never beyond the greatest legal size (00 R6). -/
def Memory.grow (m : Memory) (n : Nat) : Memory := { m with size := max m.size (min n Config.maxMemSize) }

/-- Bytes stored from `addr` upwards, those that fall outside the array left out. -/
def Memory.placeBytes (m : Memory) (addr : Nat) : List Byte → Memory
  | [] => m
  | b :: bs => Memory.placeBytes (if addr < m.size then m.put addr b else m) (addr + 1) bs

/-- A state whose next step fetches these bytes: they stand at `pc`, the array reaches that far and the engine is
not halted. It stands for the load of a program (log 2, log 21). -/
def State.withBytesAtPc (s : State) (bytes : List Byte) : State :=
  { s with
    halted := false
    mem := (s.mem.grow (s.pc.toNat + bytes.length)).placeBytes s.pc.toNat bytes }

end Sys2Proof.Machine
end

