-- ==== Sys2Proof/Machine/Step.lean ====
section
/-! DEFINITION. One step of the machine (spec 40 R70 to R73, R81). -/

namespace Sys2Proof.Machine

/-- One step: a halted engine performs none (60 R123; log 15); otherwise fetch, decode, run the handler (40 R71).
A fault ends the step with nothing changed (40 R81, 60 R124). -/
def step (s : State) : Host.Outcome State Fault Refusal :=
  if s.halted then .fault .halted
  else
    match fetch s with
    | .error f => .fault f
    | .ok bytes =>
      match decode bytes with
      | .error e => .refused (.undecodable e)
      | .ok (i, _) => retire i s (exec i s)

/-- The state `s` with the instruction word of an opcode-table row where `step` fetches next (log 21). -/
def State.withFetchWord (s : State) (nbits w : Nat) : State := s.withBytesAtPc (tableBytes nbits w)

end Sys2Proof.Machine
end

