-- ==== Sys2Proof/Machine/Engine.lean ====
section
/-! DEFINITION. The engine as a block with its outputs (spec 40 R70, R71, R82 to R85, 60 R122 to R124): what a step
command does to the state, the two snapshots it emits and the fault it indicates. The snapshots are outputs, not
state (10 R10; log 15). -/

namespace Sys2Proof.Machine

/-- The state snapshot: a full copy of ProcessorState (40 R82). -/
structure StateSnapshot where
  flags : Byte
  regA : Byte
  regX : Byte
  regY : Byte
  pc : Addr
  regS : Byte
  clock : ClockWord
  lastInfo : String
deriving DecidableEq, Repr

/-- The memory-window snapshot: its first address and its bytes (40 R83). -/
structure MemoryWindow where
  lo : Nat
  bytes : List Byte
deriving DecidableEq, Repr

/-- One item of the output port (40 R84). -/
inductive Emission where
  /-- A state snapshot. -/
  | state (snapshot : StateSnapshot)
  /-- A memory-window snapshot. -/
  | window (window : MemoryWindow)
deriving DecidableEq, Repr

/-- What one step command brings about: the state after it, what is emitted in order, and the address of the fault
indication if there is one (40 R70, 60 R122). -/
structure Response where
  state : State
  emitted : List Emission
  faultIndication : Option Nat
deriving DecidableEq, Repr

/-- The copy of ProcessorState in a state (40 R82). -/
def stateSnapshot (s : State) : StateSnapshot where
  flags := s.flags
  regA := s.regA
  regX := s.regX
  regY := s.regY
  pc := s.pc
  regS := s.regS
  clock := s.clock
  lastInfo := s.lastInfo

/-- The first address of the window, `max(0, pc - 255)` (40 R83): subtraction of natural numbers stops at 0. -/
def windowLow (s : State) : Nat := s.pc.toNat - 255

/-- One past the last address of the window, `min(MEM_SIZE - 1, pc + 256) + 1` (40 R83, decision D19; log 15). -/
def windowEnd (s : State) : Nat := min s.mem.size (s.pc.toNat + 257)

/-- The window around `pc`, empty where its bounds cross, read without the bounds check (40 R83). -/
def memoryWindow (s : State) : MemoryWindow where
  lo := windowLow s
  bytes := (List.range' (windowLow s) (windowEnd s - windowLow s)).map s.mem.byteAt

/-- A step command (40 R71): a completed step emits the state snapshot and then the window, both of the state after
it; a fault halts the engine and is indicated with its address, with nothing emitted (60 R122 to R124, 40 R85);
a halted engine does nothing (60 R123). No state is refused. -/
def stepCommand (s : State) : Response :=
  match step s with
  | .next t => ⟨t, [.state (stateSnapshot t), .window (memoryWindow t)], none⟩
  | .fault (.addressOutOfRange addr) => ⟨s.halt, [], some addr⟩
  | .fault .halted => ⟨s, [], none⟩
  | .refused _ => ⟨s, [], none⟩

/-- The state after `n` step commands. -/
def runState : Nat → State → State
  | 0, s => s
  | n + 1, s => runState n (stepCommand s).state

/-- Everything `n` step commands emit, in order (40 R84). -/
def runOutputs : Nat → State → List Emission
  | 0, _ => []
  | n + 1, s => (stepCommand s).emitted ++ runOutputs n (stepCommand s).state

end Sys2Proof.Machine
end

