-- ==== Sys2Proof/Machine/Load.lean ====
section
/-! DEFINITION. The load, which is the engine's reset for any program image (spec 70 R140 to R142). -/

namespace Sys2Proof.Machine

/-- The cells of an array whose bytes from `addr` upwards are these. -/
def cellsOfBytes (addr : Nat) : List Byte → List Host.Cell
  | [] => []
  | b :: bs => if b = unlistedByte then cellsOfBytes (addr + 1) bs else (addr, b) :: cellsOfBytes (addr + 1) bs

/-- Memory that holds exactly this image from address 0 (70 R140, 20 R40). -/
def Memory.ofImage (image : List Byte) : Memory := { size := image.length, cells := cellsOfBytes 0 image }

/-- The state after the load of an image (70 R140, 10 R27). It is defined for an illegal length too: a shorter
image then faults at its first fetch (70 R142; log 18). -/
def State.load (image : List Byte) : State := { State.reset with mem := Memory.ofImage image }

/-- The images the engine may be loaded with (00 R6, 70 R142; log 18). -/
abbrev legalImage (image : List Byte) : Prop :=
  Config.minMemSize ≤ image.length ∧ image.length ≤ Config.maxMemSize

end Sys2Proof.Machine
end

