-- ==== Sys2Proof/Safety.lean ====
section
/-! DEFINITION. What counts as a legal state and a safe run, and the words claims are stated in. They are written
in numbers and single bits, not with the model's own flag and advance functions, so that a claim compares the
model with the spec's text. -/

namespace Sys2Proof.Machine

/-- The legal states: Memory in canonical form with a legal size (00 R6), and the unused flag bits 2 to 6 zero, as
in every state reachable from reset (10 R21). -/
structure Inv (s : State) : Prop where
  memoryForm : s.mem.wf
  sizeLow : Config.minMemSize ≤ s.mem.size
  sizeHigh : s.mem.size ≤ Config.maxMemSize
  unusedFlags : ∀ k, 2 ≤ k → k ≤ 6 → s.flags.getLsbD k = false

/-- A run of `n` steps that meets no fault: an engine that halts is a failure, never a final state (60 R123). -/
def SafeRun (n : Nat) (s : State) : Prop := ∃ t, Host.Core.run Sys2Proof.core n s = .next t

/-- The bytes that stand in Memory from an address upwards. -/
def BytesAt (s : State) (addr : Nat) (bytes : List Byte) : Prop :=
  ∀ k b, bytes[k]? = some b → memRead s (addr + k) = .ok b

/-- The next instruction is a `JMP abs` to itself: this spec's convention for a finished program (70 R150). -/
def AtSelfJump (s : State) : Prop := BytesAt s s.pc.toNat (encode (.jmp s.pc))

/-- Every byte of Memory reads as before, and the array is as long as before. -/
def SameMemory (s t : State) : Prop := t.mem.size = s.mem.size ∧ ∀ a, memRead t a = memRead s a

/-- What no handler touches: the halted bit, the diagnostic text and the model's draw counter. -/
def SameHidden (s t : State) : Prop :=
  t.halted = s.halted ∧ t.lastInfo = s.lastInfo ∧ t.infoDraws = s.infoDraws

/-- The four general registers are unchanged. -/
def SameRegisters (s t : State) : Prop :=
  t.regA = s.regA ∧ t.regX = s.regX ∧ t.regY = s.regY ∧ t.regS = s.regS

/-- The pc has advanced by `n` modulo `2^16` (40 R79). -/
def AdvancedBy (n : Nat) (s t : State) : Prop := t.pc.toNat = (s.pc.toNat + n) % 2 ^ 16

/-- The clock has grown by `COST(op)` modulo `2^64` (40 R80). -/
def TickedBy (op : Byte) (s t : State) : Prop := t.clock.toNat = (s.clock.toNat + cost op) % 2 ^ 64

/-- The flags `g` after an instruction whose value is `v`, from flags `f`: the zero bit says whether `v` is 0, the
negative bit is set if bit 7 of `v` is and else unchanged, and the other bits are unchanged (40 R78). -/
def SharedFlags (f g v : Byte) : Prop :=
  (g.getLsbD 1 = true ↔ v.toNat = 0) ∧
  (g.getLsbD 7 = true ↔ 128 ≤ v.toNat ∨ f.getLsbD 7 = true) ∧
  ∀ k, k ≠ 1 → k ≠ 7 → g.getLsbD k = f.getLsbD k

/-- The offset byte `b` as the signed number the spec writes: `b - 256` if bit 7 is set, else `b` (40 R76). -/
def offsetValue (b : Byte) : Int := if 128 ≤ b.toNat then (b.toNat : Int) - 256 else b.toNat

/-- The fetch of an instruction of `len` bytes whose opcode is `op` faults exactly as the spec says: at `pc` if the
opcode byte lies outside Memory, and at the first operand byte that does (60 R121, R127). -/
def FetchFaults (op : Byte) (len : Nat) : Prop :=
  ∀ s : State, s.halted = false →
    (s.mem.size ≤ s.pc.toNat → step s = .fault (.addressOutOfRange s.pc.toNat)) ∧
    (memRead s s.pc.toNat = .ok op → ∀ k, 1 ≤ k → k < len → (∀ j, j < k → s.pc.toNat + j < s.mem.size) →
      s.mem.size ≤ s.pc.toNat + k → step s = .fault (.addressOutOfRange (s.pc.toNat + k)))

/-- Changes the state of a next outcome and leaves a stop as it is. -/
def mapNext (g : State → State) : Host.Outcome State Fault Refusal → Host.Outcome State Fault Refusal
  | .next t => .next (g t)
  | .fault f => .fault f
  | .refused r => .refused r

/-- The value a flag-affecting instruction names, which the shared flag rule is applied to; none for the
instructions that do not call the rule (10 R19). -/
def flagValue : Instr → State → Option Byte
  | .ldaImm v, _ => some v
  | .ldaAbs ea, s => some (s.mem.byteAt ea.toNat)
  | .ldx v, _ => some v
  | .ldy v, _ => some v
  | .sta _, _ => none
  | .tax, s => some s.regA
  | .tya, s => some s.regY
  | .txs, s => some s.regX
  | .adc v, s => some (BitVec.ofNat 8 (s.regA.toNat + v.toNat))
  | .eor _, _ => none
  | .cmp v, s => some (BitVec.ofNat 8 (s.regA.toNat + 256 - v.toNat))
  | .dex, s => some (BitVec.ofNat 8 (s.regX.toNat + 255))
  | .dey, s => some (BitVec.ofNat 8 (s.regY.toNat + 255))
  | .clc, _ => none
  | .cld, _ => none
  | .bpl _, _ => none
  | .bne _, _ => none
  | .beq _, _ => none
  | .jmp _, _ => none
  | .nop _, _ => none

end Sys2Proof.Machine
end

