-- ==== Sys2Proof/Certificates/Slice0/Obligations.lean ====
section
/-! DEFINITION. The statements about the model, from the numbered rules of spec/. The words they use
(`SharedFlags`, `AdvancedBy`, `FetchFaults`, …) are defined in Safety. Where a clause rests on a decision the spec
marks as its own, the docstring names it. -/

open Sys2Proof Sys2Proof.Machine

/-! ## Encoding -/

/-- Decoding what the encoder writes gives the instruction back, whatever follows it (30 sections 1 to 4). -/
def Obligations.DecodeOfEncodeIsTheInstruction : Prop :=
  ∀ (i : Instr) (rest : List Byte), i.wf = true → decode (encode i ++ rest) = .ok (i, rest)

/-- What decodes is well formed, and its encoding is exactly the bytes read (30 sections 1 to 4): every encoding has
one meaning and no operand bit is dropped. -/
def Obligations.EncodeOfDecodeIsTheBytes : Prop :=
  ∀ (bytes rest : List Byte) (i : Instr), decode bytes = .ok (i, rest) → i.wf = true ∧ bytes = encode i ++ rest

/-- R57: the opcode byte alone decides how many bytes are taken, and it always is one of the three lengths. -/
def Obligations.OpcodeByteDecidesLength : Prop :=
  ∀ op b1 b2 : Byte, ∀ rest : List Byte, ∃ i,
    decode (op :: b1 :: b2 :: rest) = .ok (i,
      if op ∈ ([0x4C, 0x8D, 0xAD] : List Byte) then rest
      else if op ∈ ([0x10, 0x49, 0x69, 0xA0, 0xA2, 0xA9, 0xC9, 0xD0, 0xF0] : List Byte) then b2 :: rest
      else b1 :: b2 :: rest)

/-- Words written out from the spec's encodings (30 R51 to R54, 95 sections 1 to 3) decode to the instructions they
stand for, one or more of every family. -/
def Obligations.WrittenOutWordsDecode : Prop :=
  decode [0xA9, 0x2A] = .ok (.ldaImm 0x2A, []) ∧
  decode [0x8D, 0x00, 0x05] = .ok (.sta 0x0500, []) ∧
  decode [0xAD, 0x20, 0x04] = .ok (.ldaAbs 0x0420, []) ∧
  decode [0xAA] = .ok (.tax, []) ∧
  decode [0x69, 0x05] = .ok (.adc 0x05, []) ∧
  decode [0xC9, 0xFF, 0x88] = .ok (.cmp 0xFF, [0x88]) ∧
  decode [0xD8] = .ok (.cld, []) ∧
  decode [0xD0, 0xFB] = .ok (.bne 0xFB, []) ∧
  decode [0x4C, 0x34, 0x12] = .ok (.jmp 0x1234, []) ∧
  decode [0xA5, 0x10] = .ok (.nop 0xA5, [0x10])

/-! ## Memory -/

/-- R34, R35: both primitives fault exactly at and beyond `MEM_SIZE`, a read in range gives a byte, and a write in
range changes that byte and nothing else. -/
def Obligations.MemoryPrimitivesCheckAndStore : Prop :=
  ∀ (s : State) (a : Nat) (v : Byte),
    (s.mem.size ≤ a →
      memRead s a = .error (.addressOutOfRange a) ∧ memWrite s a v = .error (.addressOutOfRange a)) ∧
    (a < s.mem.size →
      (∃ b, memRead s a = .ok b) ∧
      ∃ t, memWrite s a v = .ok t ∧ memRead t a = .ok v ∧ (∀ b, b ≠ a → memRead t b = memRead s b) ∧
        t.mem.size = s.mem.size ∧ SameRegisters s t ∧ t.flags = s.flags ∧ t.pc = s.pc ∧ t.clock = s.clock ∧
        SameHidden s t)

/-- Two memories in canonical form that read alike are the same data (log 3: the form is the model's choice). -/
def Obligations.CanonicalMemoriesThatReadAlikeAreEqual : Prop :=
  ∀ m n : Memory, m.wf → n.wf → m.size = n.size → (∀ a, m.byteAt a = n.byteAt a) → m = n

/-- R24: one step changes no byte of Memory unless the instruction at `pc` is a `STA abs`, and then only the byte at
its address, which becomes the accumulator; the array keeps its length. -/
def Obligations.OnlyStoreChangesMemory : Prop :=
  ∀ s t : State, step s = .next t →
    t.mem.size = s.mem.size ∧
    ∀ a, memRead t a ≠ memRead s a →
      ∃ ea : Addr, BytesAt s s.pc.toNat (encode (.sta ea)) ∧ a = dataAddress ea ∧ memRead t a = .ok s.regA

/-- R145: the step after a store fetches the stored byte where it stands among its instruction bytes, and otherwise
the bytes that stood in Memory before the store. -/
def Obligations.StoredByteIsFetchedByTheNextStep : Prop :=
  ∀ (s : State) (ea : Addr), s.halted = false → BytesAt s s.pc.toNat (encode (.sta ea)) →
    dataAddress ea < s.mem.size →
    ∃ t, step s = .next t ∧
      ∀ bytes, fetch t = .ok bytes → ∀ k b, bytes[k]? = some b →
        (t.pc.toNat + k = dataAddress ea → b = s.regA) ∧
        (t.pc.toNat + k ≠ dataAddress ea → memRead s (t.pc.toNat + k) = .ok b)

/-! ## The step -/

/-- When the bytes at `pc` are those of a well-formed instruction, a step of an engine that is not halted is that
instruction's `exec` with the diagnostic text renewed (40 R71 to R73; 10 R23). -/
def Obligations.StepRunsTheDecodedInstruction : Prop :=
  ∀ (s : State) (i : Instr), s.halted = false → i.wf = true → BytesAt s s.pc.toNat (encode i) →
    (∀ t, exec i s = .next t →
      step s = .next { t with
        lastInfo := Config.instructionInfo t.infoDraws (infoContext i s t), infoDraws := t.infoDraws + 1 }) ∧
    (∀ f, exec i s = .fault f → step s = .fault f) ∧
    (∀ r, exec i s ≠ .refused r)

/-- No step of any state is refused: every byte decodes, and every instruction has a meaning (30 R60, 60 R129). -/
def Obligations.NoStepIsRefused : Prop :=
  ∀ (s : State) (r : Refusal), step s ≠ .refused r

/-- A step completes when its instruction bytes and its data address lie inside Memory (40 section 1, 70 section 5). -/
def Obligations.StepCompletesWhenAllAddressesAreInside : Prop :=
  ∀ (s : State) (i : Instr), s.halted = false → i.wf = true → BytesAt s s.pc.toNat (encode i) →
    (∀ ea, i = .ldaAbs ea ∨ i = .sta ea → dataAddress ea < s.mem.size) →
    ∃ t, step s = .next t

/-- A step that is not of a halted engine faults only for an address at or beyond `MEM_SIZE`, and only for one of the
accesses the spec lists: the opcode byte, an operand byte, or the data address of `LDA abs` or `STA abs`
(60 section 1; decisions D12 and D15, log 11 and 14). -/
def Obligations.StepFaultsOnlyForAnAccessOutOfRange : Prop :=
  ∀ (s : State) (f : Fault), s.halted = false → step s = .fault f →
    ∃ addr, f = .addressOutOfRange addr ∧ s.mem.size ≤ addr ∧
      (addr = s.pc.toNat ∨
        (∃ op, memRead s s.pc.toNat = .ok op ∧ s.pc.toNat < addr ∧ addr ≤ s.pc.toNat + operandCount op) ∨
        ∃ ea : Addr, addr = dataAddress ea ∧
          (BytesAt s s.pc.toNat (encode (.ldaAbs ea)) ∨ BytesAt s s.pc.toNat (encode (.sta ea))))

/-- One step keeps every legal state legal: Memory in canonical form and of legal size, the unused flag bits zero
(10 section 4, 20 section 1). The canonical form is the model's choice (log 3), and the upper bound of a legal size is
the spec's decision D8 (log 2). -/
def Obligations.StepKeepsLegalStates : Prop :=
  ∀ s t : State, Inv s → step s = .next t → Inv t

/-- The reset state is legal (10 section 9). Its zero flags are the spec's decision D7 (log 1), its image and size the
model's choice (log 2), and the canonical form of Memory the model's choice (log 3). -/
def Obligations.ResetStateIsLegal : Prop := Inv State.reset

/-- The load of every legal image gives a legal state (70 section 1). That flag bits 2 to 6 are zero after a load is
the spec's decision D7 (log 1), the canonical form of Memory is the model's choice (log 3), and the upper bound of a
legal length is decision D8 (log 2). -/
def Obligations.LoadedStatesAreLegal : Prop :=
  ∀ image : List Byte, legalImage image → Inv (State.load image)

/-- After the load of an image: `pc` is 0x0400, Memory is the image from address 0 and as long as it, the engine is
not halted (70 section 1), and the registers, flags and clock are zero (the spec's decision D7, log 1). That images of
an illegal length are loaded too is the model's choice (log 18). -/
def Obligations.LoadPlacesTheImage : Prop :=
  ∀ image : List Byte,
    (State.load image).pc = 0x0400 ∧ (State.load image).mem.size = image.length ∧
    (∀ a b, image[a]? = some b → memRead (State.load image) a = .ok b) ∧
    (State.load image).halted = false ∧
    (State.load image).regA = 0 ∧ (State.load image).regX = 0 ∧ (State.load image).regY = 0 ∧
    (State.load image).regS = 0 ∧ (State.load image).flags = 0 ∧ (State.load image).clock = 0

/-- The reset state is the load of as many zero bytes as Memory may have: the model's choice of an image, log 2. -/
def Obligations.ResetIsTheLoadOfZeros : Prop :=
  State.reset = State.load (List.replicate Config.maxMemSize 0)

/-- An image too short for the entry address faults at its first fetch (70 section 2). That the model admits such an
image is its choice (log 18). -/
def Obligations.ShortImageFaultsAtItsFirstFetch : Prop :=
  ∀ image : List Byte, image.length ≤ 0x400 → step (State.load image) = .fault (.addressOutOfRange 0x400)

/-! ## Faults and outputs -/

/-- A step that faults changes nothing but the halted bit, emits nothing and indicates the address, and no later step
command changes or emits anything (60 sections 1 and 2, decision D16, log 15). -/
def Obligations.FaultIsPreciseAndFinal : Prop :=
  ∀ (s : State) (addr : Nat), step s = .fault (.addressOutOfRange addr) →
    (stepCommand s).faultIndication = some addr ∧
    ∀ n, runState (n + 1) s = { s with halted := true } ∧ runOutputs (n + 1) s = []

/-- While the engine is halted a step is a fault outcome, and step commands change and emit nothing
(60 section 2, decision D16, log 15). -/
def Obligations.HaltedEngineDoesNothing : Prop :=
  ∀ s : State, s.halted = true →
    step s = .fault .halted ∧ ∀ n, runState n s = s ∧ runOutputs n s = []

/-- R82: the state snapshot emitted after a completed step, before anything else, is the full copy of ProcessorState
as it is after that step. -/
def Obligations.StateSnapshotCopiesTheNewState : Prop :=
  ∀ s t : State, step s = .next t →
    (stepCommand s).state = t ∧
    (stepCommand s).emitted.head? = some (.state
      { flags := t.flags, regA := t.regA, regX := t.regX, regY := t.regY, pc := t.pc, regS := t.regS,
        clock := t.clock, lastInfo := t.lastInfo })

/-- The memory window begins at `max(0, pc - 255)`, ends at `min(MEM_SIZE - 1, pc + 256)`, holds at most 512 bytes,
and every one of them is a byte of Memory in range (40 section 5, decision D19, log 15). -/
def Obligations.MemoryWindowIsClampedToMemory : Prop :=
  ∀ s : State,
    (memoryWindow s).lo = s.pc.toNat - 255 ∧
    ((memoryWindow s).bytes.length : Int) =
      max 0 (min ((s.mem.size : Int) - 1) (s.pc.toNat + 256) - max 0 ((s.pc.toNat : Int) - 255) + 1) ∧
    (memoryWindow s).bytes.length ≤ 512 ∧
    ∀ k b, (memoryWindow s).bytes[k]? = some b → memRead s ((memoryWindow s).lo + k) = .ok b

/-- A run of `n` completed steps emits `n` pairs, the state snapshot of each step before its window and the pairs in
step order (40 section 5). -/
def Obligations.SnapshotPairsComeInStepOrder : Prop :=
  ∀ (n : Nat) (s : State), SafeRun n s →
    (runOutputs n s).length = 2 * n ∧
    ∀ k, k < n →
      (runOutputs n s)[2 * k]? = some (.state (stateSnapshot (runState (k + 1) s))) ∧
      (runOutputs n s)[2 * k + 1]? = some (.window (memoryWindow (runState (k + 1) s)))

/-! ## Registers, flags and clock over all instructions -/

/-- R11: `A` is written by `LDA #`, `LDA abs`, `TYA`, `ADC #` and `EOR #` alone, and read by `STA abs`, `TAX`,
`ADC #`, `EOR #` and `CMP #` alone: in any other instruction, another value of `A` makes no difference. -/
def Obligations.AccumulatorWritersAndReaders : Prop :=
  ∀ (i : Instr) (s : State), i.wf = true →
    (opcodeOf i ∉ ([0xA9, 0xAD, 0x98, 0x69, 0x49] : List Byte) → ∀ t, exec i s = .next t → t.regA = s.regA) ∧
    (opcodeOf i ∉ ([0x8D, 0xAA, 0x69, 0x49, 0xC9] : List Byte) → ∀ v : Byte,
      exec i { s with regA := v } =
        mapNext (fun t => if opcodeOf i ∈ ([0xA9, 0xAD, 0x98] : List Byte) then t else { t with regA := v })
          (exec i s))

/-- R12, R13: `X` is written by `LDX #`, `TAX` and `DEX` and read by `TXS` and `DEX` alone; `Y` is written by `LDY #`
and `DEY` and read by `TYA` and `DEY` alone. -/
def Obligations.IndexRegisterWritersAndReaders : Prop :=
  ∀ (i : Instr) (s : State), i.wf = true →
    (opcodeOf i ∉ ([0xA2, 0xAA, 0xCA] : List Byte) → ∀ t, exec i s = .next t → t.regX = s.regX) ∧
    (opcodeOf i ∉ ([0x9A, 0xCA] : List Byte) → ∀ v : Byte,
      exec i { s with regX := v } =
        mapNext (fun t => if opcodeOf i ∈ ([0xA2, 0xAA] : List Byte) then t else { t with regX := v }) (exec i s)) ∧
    (opcodeOf i ∉ ([0xA0, 0x88] : List Byte) → ∀ t, exec i s = .next t → t.regY = s.regY) ∧
    (opcodeOf i ∉ ([0x98, 0x88] : List Byte) → ∀ v : Byte,
      exec i { s with regY := v } =
        mapNext (fun t => if opcodeOf i ∈ ([0xA0] : List Byte) then t else { t with regY := v }) (exec i s))

/-- R14: `S` is written by `TXS` alone and read by no instruction: its value never influences any other state. -/
def Obligations.StackPointerInfluencesNothing : Prop :=
  ∀ (i : Instr) (s : State), i.wf = true →
    (opcodeOf i ≠ 0x9A → ∀ t, exec i s = .next t → t.regS = s.regS) ∧
    ∀ v : Byte, exec i { s with regS := v } =
      mapNext (fun t => if opcodeOf i = 0x9A then t else { t with regS := v }) (exec i s)

/-- R19: the eleven flag-affecting instructions leave the zero bit saying whether the value they name is 0, and every
other instruction leaves it as it is. -/
def Obligations.ZeroFlagSaysValueWasZero : Prop :=
  ∀ (i : Instr) (s t : State), exec i s = .next t →
    (∀ v, flagValue i s = some v → (flagZ t.flags = true ↔ v.toNat = 0)) ∧
    (flagValue i s = none → flagZ t.flags = flagZ s.flags)

/-- The negative bit is sticky: only `CLD` clears it, and it is otherwise set exactly if it was set or bit 7 of the
instruction's value is (10 section 4, decision D1, log 6). -/
def Obligations.NegativeFlagIsSticky : Prop :=
  ∀ (i : Instr) (s t : State), exec i s = .next t →
    (i = .cld → flagN t.flags = false) ∧
    (i ≠ .cld → (flagN t.flags = true ↔ flagN s.flags = true ∨ ∃ v, flagValue i s = some v ∧ 128 ≤ v.toNat))

/-- The carry bit is assigned by `CMP #`, cleared by `CLC` and left alone by everything else (10 section 4, decisions
D2 and D6, log 7). -/
def Obligations.CarryIsTouchedOnlyByCompareAndClear : Prop :=
  ∀ (i : Instr) (s t : State), exec i s = .next t →
    (∀ v, i = .cmp v → (flagC t.flags = true ↔ v.toNat < s.regA.toNat)) ∧
    (i = .clc → flagC t.flags = false) ∧
    ((∀ v, i ≠ .cmp v) → i ≠ .clc → flagC t.flags = flagC s.flags)

/-- Every completed step adds its opcode's cost, which lies between 1 and 5 and is `DEFAULT_COST` for an unlisted
opcode, to the clock modulo `2^64` (70 section 4, 10 section 5, decisions D9 and D10, log 4 and 17). -/
def Obligations.StepAddsTheOpcodesCost : Prop :=
  ∀ s t : State, step s = .next t →
    ∃ op, memRead s s.pc.toNat = .ok op ∧ TickedBy op s t ∧ 1 ≤ cost op ∧ cost op ≤ 5 ∧
      (op ∉ listedOpcodes → cost op = Config.defaultCost)

/-- The clock is read by no instruction: from another clock value every outcome is the same, but that the clock after
it is shifted by the same amount (10 section 5, 70 section 4). -/
def Obligations.ClockInfluencesNothing : Prop :=
  ∀ (i : Instr) (s : State) (c : ClockWord),
    exec i { s with clock := c } = mapNext (fun t => { t with clock := t.clock + (c - s.clock) }) (exec i s)

/-- The diagnostic text is read by nothing: a step from another text is the same step (10 section 6, decision D18,
log 5). -/
def Obligations.DiagnosticTextInfluencesNothing : Prop :=
  ∀ (s : State) (text : String), step { s with lastInfo := text } = step s

/-- A finished program (next instruction a `JMP abs` to itself) stays finished: for any number of steps nothing
changes but the clock, which grows by `COST(0x4C)` a step, and the diagnostic text (70 section 5, decision D22). -/
def Obligations.FinishedProgramStaysFinished : Prop :=
  ∀ (n : Nat) (s : State), s.halted = false → AtSelfJump s →
    ∃ t, Host.Core.run Sys2Proof.core n s = .next t ∧ AtSelfJump t ∧ t.pc = s.pc ∧ SameRegisters s t ∧
      t.flags = s.flags ∧ t.mem = s.mem ∧ t.halted = false ∧
      t.clock.toNat = (s.clock.toNat + n * cost 0x4C) % 2 ^ 64

/-! ## Loads and the store -/

/-- R90: `LDA #`. The sticky negative bit is decision D1, the wrap of `pc` at the top D11. -/
def Obligations.LdaImmediateEffect : Prop :=
  (∀ v rest, decode (0xA9 :: v :: rest) = .ok (.ldaImm v, rest)) ∧
  (∀ (v : Byte) (s : State), ∃ t, exec (.ldaImm v) s = .next t ∧
    t.regA = v ∧ t.regX = s.regX ∧ t.regY = s.regY ∧ t.regS = s.regS ∧
    SharedFlags s.flags t.flags v ∧ AdvancedBy 2 s t ∧ TickedBy 0xA9 s t ∧ SameMemory s t ∧ SameHidden s t) ∧
  FetchFaults 0xA9 2

/-- `LDA abs` loads the byte at its address (41). At a data address outside Memory it faults with nothing changed but
the halted bit, which is decision D16 (log 15). That the first operand byte out of range is the one reported is
decision D17 (log 16), and the sticky negative bit is decision D1 (log 6). -/
def Obligations.LdaAbsoluteEffect : Prop :=
  (∀ lo hi rest, ∃ ea : Addr, decode (0xAD :: lo :: hi :: rest) = .ok (.ldaAbs ea, rest) ∧
    ea.toNat = 256 * hi.toNat + lo.toNat) ∧
  (∀ (ea : Addr) (s : State), ea.toNat < s.mem.size → ∃ v t, memRead s ea.toNat = .ok v ∧
    exec (.ldaAbs ea) s = .next t ∧
    t.regA = v ∧ t.regX = s.regX ∧ t.regY = s.regY ∧ t.regS = s.regS ∧
    SharedFlags s.flags t.flags v ∧ AdvancedBy 3 s t ∧ TickedBy 0xAD s t ∧ SameMemory s t ∧ SameHidden s t) ∧
  (∀ (ea : Addr) (s : State), s.halted = false → BytesAt s s.pc.toNat (encode (.ldaAbs ea)) →
    s.mem.size ≤ ea.toNat →
    step s = .fault (.addressOutOfRange ea.toNat) ∧ (stepCommand s).state = { s with halted := true }) ∧
  FetchFaults 0xAD 3

/-- R92: `LDX #`. -/
def Obligations.LdxImmediateEffect : Prop :=
  (∀ v rest, decode (0xA2 :: v :: rest) = .ok (.ldx v, rest)) ∧
  (∀ (v : Byte) (s : State), ∃ t, exec (.ldx v) s = .next t ∧
    t.regX = v ∧ t.regA = s.regA ∧ t.regY = s.regY ∧ t.regS = s.regS ∧
    SharedFlags s.flags t.flags v ∧ AdvancedBy 2 s t ∧ TickedBy 0xA2 s t ∧ SameMemory s t ∧ SameHidden s t) ∧
  FetchFaults 0xA2 2

/-- R93: `LDY #`. -/
def Obligations.LdyImmediateEffect : Prop :=
  (∀ v rest, decode (0xA0 :: v :: rest) = .ok (.ldy v, rest)) ∧
  (∀ (v : Byte) (s : State), ∃ t, exec (.ldy v) s = .next t ∧
    t.regY = v ∧ t.regA = s.regA ∧ t.regX = s.regX ∧ t.regS = s.regS ∧
    SharedFlags s.flags t.flags v ∧ AdvancedBy 2 s t ∧ TickedBy 0xA0 s t ∧ SameMemory s t ∧ SameHidden s t) ∧
  FetchFaults 0xA0 2

/-- `STA abs` stores the accumulator at its address and changes no other byte, no register and no flag (41). At an
address outside Memory it faults with nothing changed but the halted bit, which is decision D16 (log 15). That the
first operand byte out of range is the one reported is decision D17 (log 16). -/
def Obligations.StaAbsoluteEffect : Prop :=
  (∀ lo hi rest, ∃ ea : Addr, decode (0x8D :: lo :: hi :: rest) = .ok (.sta ea, rest) ∧
    ea.toNat = 256 * hi.toNat + lo.toNat) ∧
  (∀ (ea : Addr) (s : State), dataAddress ea < s.mem.size → ∃ t, exec (.sta ea) s = .next t ∧
    memRead t (dataAddress ea) = .ok s.regA ∧
    (∀ a, a ≠ dataAddress ea → memRead t a = memRead s a) ∧ t.mem.size = s.mem.size ∧
    SameRegisters s t ∧ t.flags = s.flags ∧ AdvancedBy 3 s t ∧ TickedBy 0x8D s t ∧ SameHidden s t) ∧
  (∀ (ea : Addr) (s : State), s.halted = false → BytesAt s s.pc.toNat (encode (.sta ea)) →
    s.mem.size ≤ dataAddress ea →
    step s = .fault (.addressOutOfRange ea.toNat) ∧ (stepCommand s).state = { s with halted := true }) ∧
  FetchFaults 0x8D 3

/-! ## Transfers -/

/-- `TAX` (42). The shared rule is applied before and after the move, which leaves what one application leaves:
decision D25 (log 19). The sticky negative bit is decision D1 (log 6). -/
def Obligations.TaxEffect : Prop :=
  (∀ rest, decode (0xAA :: rest) = .ok (.tax, rest)) ∧
  (∀ s : State, ∃ t, exec .tax s = .next t ∧
    t.regX = s.regA ∧ t.regA = s.regA ∧ t.regY = s.regY ∧ t.regS = s.regS ∧
    SharedFlags s.flags t.flags s.regA ∧ AdvancedBy 1 s t ∧ TickedBy 0xAA s t ∧ SameMemory s t ∧
    SameHidden s t) ∧
  FetchFaults 0xAA 1

/-- R96: `TYA`. -/
def Obligations.TyaEffect : Prop :=
  (∀ rest, decode (0x98 :: rest) = .ok (.tya, rest)) ∧
  (∀ s : State, ∃ t, exec .tya s = .next t ∧
    t.regA = s.regY ∧ t.regX = s.regX ∧ t.regY = s.regY ∧ t.regS = s.regS ∧
    SharedFlags s.flags t.flags s.regY ∧ AdvancedBy 1 s t ∧ TickedBy 0x98 s t ∧ SameMemory s t ∧
    SameHidden s t) ∧
  FetchFaults 0x98 1

/-- R97: `TXS`, which does update the flags. -/
def Obligations.TxsEffect : Prop :=
  (∀ rest, decode (0x9A :: rest) = .ok (.txs, rest)) ∧
  (∀ s : State, ∃ t, exec .txs s = .next t ∧
    t.regS = s.regX ∧ t.regA = s.regA ∧ t.regX = s.regX ∧ t.regY = s.regY ∧
    SharedFlags s.flags t.flags s.regX ∧ AdvancedBy 1 s t ∧ TickedBy 0x9A s t ∧ SameMemory s t ∧
    SameHidden s t) ∧
  FetchFaults 0x9A 1

/-! ## Arithmetic and logic -/

/-- `ADC #`: the sum modulo 256 without the carry, which is left alone (43; decisions D3 and D4, log 8). -/
def Obligations.AdcImmediateEffect : Prop :=
  (∀ v rest, decode (0x69 :: v :: rest) = .ok (.adc v, rest)) ∧
  (∀ (v : Byte) (s : State), ∃ t, exec (.adc v) s = .next t ∧
    t.regA.toNat = (s.regA.toNat + v.toNat) % 256 ∧ t.regX = s.regX ∧ t.regY = s.regY ∧ t.regS = s.regS ∧
    SharedFlags s.flags t.flags t.regA ∧ AdvancedBy 2 s t ∧ TickedBy 0x69 s t ∧ SameMemory s t ∧
    SameHidden s t) ∧
  FetchFaults 0x69 2

/-- R101: `EOR #`, bit by bit, with every flag as it was. -/
def Obligations.EorImmediateEffect : Prop :=
  (∀ v rest, decode (0x49 :: v :: rest) = .ok (.eor v, rest)) ∧
  (∀ (v : Byte) (s : State), ∃ t, exec (.eor v) s = .next t ∧
    (∀ k, t.regA.getLsbD k = (s.regA.getLsbD k != v.getLsbD k)) ∧
    t.regX = s.regX ∧ t.regY = s.regY ∧ t.regS = s.regS ∧
    t.flags = s.flags ∧ AdvancedBy 2 s t ∧ TickedBy 0x49 s t ∧ SameMemory s t ∧ SameHidden s t) ∧
  FetchFaults 0x49 2

/-- `CMP #`: the carry says `A > v`, strictly; the zero bit says `A = v`; the negative bit is set if the wrapped
difference has bit 7 set; bits 2 to 6 and every register stay (43; decisions D1, D2, D6, log 6 and 7). -/
def Obligations.CmpImmediateEffect : Prop :=
  (∀ v rest, decode (0xC9 :: v :: rest) = .ok (.cmp v, rest)) ∧
  (∀ (v : Byte) (s : State), ∃ t, exec (.cmp v) s = .next t ∧ SameRegisters s t ∧
    (t.flags.getLsbD 0 = true ↔ v.toNat < s.regA.toNat) ∧
    (t.flags.getLsbD 1 = true ↔ s.regA = v) ∧
    (t.flags.getLsbD 7 = true ↔ 128 ≤ (s.regA.toNat + 256 - v.toNat) % 256 ∨ s.flags.getLsbD 7 = true) ∧
    (∀ k, 2 ≤ k → k ≤ 6 → t.flags.getLsbD k = s.flags.getLsbD k) ∧
    AdvancedBy 2 s t ∧ TickedBy 0xC9 s t ∧ SameMemory s t ∧ SameHidden s t) ∧
  FetchFaults 0xC9 2

/-- R103: `DEX`. -/
def Obligations.DexEffect : Prop :=
  (∀ rest, decode (0xCA :: rest) = .ok (.dex, rest)) ∧
  (∀ s : State, ∃ t, exec .dex s = .next t ∧
    (t.regX.toNat : Int) = ((s.regX.toNat : Int) - 1) % 256 ∧ t.regA = s.regA ∧ t.regY = s.regY ∧
    t.regS = s.regS ∧ SharedFlags s.flags t.flags t.regX ∧ AdvancedBy 1 s t ∧ TickedBy 0xCA s t ∧
    SameMemory s t ∧ SameHidden s t) ∧
  FetchFaults 0xCA 1

/-- R104: `DEY`. -/
def Obligations.DeyEffect : Prop :=
  (∀ rest, decode (0x88 :: rest) = .ok (.dey, rest)) ∧
  (∀ s : State, ∃ t, exec .dey s = .next t ∧
    (t.regY.toNat : Int) = ((s.regY.toNat : Int) - 1) % 256 ∧ t.regA = s.regA ∧ t.regX = s.regX ∧
    t.regS = s.regS ∧ SharedFlags s.flags t.flags t.regY ∧ AdvancedBy 1 s t ∧ TickedBy 0x88 s t ∧
    SameMemory s t ∧ SameHidden s t) ∧
  FetchFaults 0x88 1

/-! ## Flag instructions -/

/-- R107: `CLC` clears bit 0 and nothing else of the flags. -/
def Obligations.ClcEffect : Prop :=
  (∀ rest, decode (0x18 :: rest) = .ok (.clc, rest)) ∧
  (∀ s : State, ∃ t, exec .clc s = .next t ∧ SameRegisters s t ∧
    t.flags.getLsbD 0 = false ∧ (∀ k, k ≠ 0 → t.flags.getLsbD k = s.flags.getLsbD k) ∧
    AdvancedBy 1 s t ∧ TickedBy 0x18 s t ∧ SameMemory s t ∧ SameHidden s t) ∧
  FetchFaults 0x18 1

/-- `CLD` clears bits 2 to 7 and keeps bits 0 and 1 (44; conflict C1, decision D5, log 9). -/
def Obligations.CldEffect : Prop :=
  (∀ rest, decode (0xD8 :: rest) = .ok (.cld, rest)) ∧
  (∀ s : State, ∃ t, exec .cld s = .next t ∧ SameRegisters s t ∧
    (∀ k, 2 ≤ k → t.flags.getLsbD k = false) ∧ (∀ k, k < 2 → t.flags.getLsbD k = s.flags.getLsbD k) ∧
    AdvancedBy 1 s t ∧ TickedBy 0xD8 s t ∧ SameMemory s t ∧ SameHidden s t) ∧
  FetchFaults 0xD8 1

/-! ## Control transfer and the default handler -/

/-- R110: `BPL`, taken when the negative bit is clear; the offset byte is fetched taken or not, and the target is
not checked. The narrowing of the target is decision D13. -/
def Obligations.BplEffect : Prop :=
  (∀ r rest, decode (0x10 :: r :: rest) = .ok (.bpl r, rest)) ∧
  (∀ (r : Byte) (s : State), ∃ t, exec (.bpl r) s = .next t ∧
    (s.flags.getLsbD 7 = false → (t.pc.toNat : Int) = ((s.pc.toNat : Int) + 2 + offsetValue r) % 65536) ∧
    (s.flags.getLsbD 7 = true → AdvancedBy 2 s t) ∧
    SameRegisters s t ∧ t.flags = s.flags ∧ TickedBy 0x10 s t ∧ SameMemory s t ∧ SameHidden s t) ∧
  FetchFaults 0x10 2

/-- R111: `BNE`, taken when the zero bit is clear. -/
def Obligations.BneEffect : Prop :=
  (∀ r rest, decode (0xD0 :: r :: rest) = .ok (.bne r, rest)) ∧
  (∀ (r : Byte) (s : State), ∃ t, exec (.bne r) s = .next t ∧
    (s.flags.getLsbD 1 = false → (t.pc.toNat : Int) = ((s.pc.toNat : Int) + 2 + offsetValue r) % 65536) ∧
    (s.flags.getLsbD 1 = true → AdvancedBy 2 s t) ∧
    SameRegisters s t ∧ t.flags = s.flags ∧ TickedBy 0xD0 s t ∧ SameMemory s t ∧ SameHidden s t) ∧
  FetchFaults 0xD0 2

/-- R112: `BEQ`, taken when the zero bit is set. -/
def Obligations.BeqEffect : Prop :=
  (∀ r rest, decode (0xF0 :: r :: rest) = .ok (.beq r, rest)) ∧
  (∀ (r : Byte) (s : State), ∃ t, exec (.beq r) s = .next t ∧
    (s.flags.getLsbD 1 = true → (t.pc.toNat : Int) = ((s.pc.toNat : Int) + 2 + offsetValue r) % 65536) ∧
    (s.flags.getLsbD 1 = false → AdvancedBy 2 s t) ∧
    SameRegisters s t ∧ t.flags = s.flags ∧ TickedBy 0xF0 s t ∧ SameMemory s t ∧ SameHidden s t) ∧
  FetchFaults 0xF0 2

/-- `JMP abs`: the pc becomes the address, in Memory or not; a target outside Memory faults at the next fetch
(45; decision D15, log 14). That the first operand byte out of range is the one reported is decision D17 (log 16). -/
def Obligations.JmpAbsoluteEffect : Prop :=
  (∀ lo hi rest, ∃ ea : Addr, decode (0x4C :: lo :: hi :: rest) = .ok (.jmp ea, rest) ∧
    ea.toNat = 256 * hi.toNat + lo.toNat) ∧
  (∀ (ea : Addr) (s : State), ∃ t, exec (.jmp ea) s = .next t ∧
    t.pc = ea ∧ SameRegisters s t ∧ t.flags = s.flags ∧ TickedBy 0x4C s t ∧ SameMemory s t ∧ SameHidden s t ∧
    (s.halted = false → s.mem.size ≤ ea.toNat → step t = .fault (.addressOutOfRange ea.toNat))) ∧
  FetchFaults 0x4C 3

/-- R86: every unlisted opcode byte is a one-byte instruction that only advances the pc by 1 and adds
`DEFAULT_COST`; the byte after it is not read, so the step completes even where no such byte exists. -/
def Obligations.DefaultHandlerEffect : Prop :=
  ∀ op : Byte, op ∉ listedOpcodes →
    (∀ rest, decode (op :: rest) = .ok (.nop op, rest)) ∧
    (∀ s : State, ∃ t, exec (.nop op) s = .next t ∧ SameRegisters s t ∧ t.flags = s.flags ∧ AdvancedBy 1 s t ∧
      t.clock.toNat = (s.clock.toNat + Config.defaultCost) % 2 ^ 64 ∧ SameMemory s t ∧ SameHidden s t) ∧
    (∀ s : State, s.halted = false → memRead s s.pc.toNat = .ok op → ∃ t, step s = .next t) ∧
    FetchFaults op 1
end

