-- ==== Sys2Proof/Laws/Decode.lean ====
section
/-! SUPPORT. The decoder's and the encoder's small lemmas. -/

namespace Sys2Proof

theorem isListed_iff (op : Byte) : isListed op = true ↔ op ∈ listedOpcodes := by
  simp [isListed]

/-- A byte that is not listed selects the default handler (30 R58). -/
theorem opcodeMap_of_unlisted {op : Byte} (h : op ∉ listedOpcodes) : opcodeMap op = .impl (.nop op) := by
  unfold opcodeMap
  split <;> first | rfl | exact absurd (by decide) h

theorem absAddress_toNat (lo hi : Byte) : (absAddress lo hi).toNat = 256 * hi.toNat + lo.toNat := by
  have := lo.isLt
  have := hi.isLt
  simp only [absAddress, BitVec.toNat_ofNat]
  omega

/-- Splitting an address and assembling it again gives it back (30 R54). -/
@[simp] theorem absAddress_lowByte_highByte (a : Addr) : absAddress (lowByte a) (highByte a) = a := by
  have := a.isLt
  apply BitVec.eq_of_toNat_eq
  rw [absAddress_toNat]
  simp only [lowByte, highByte, BitVec.toNat_ofNat]
  omega

@[simp] theorem lowByte_absAddress (lo hi : Byte) : lowByte (absAddress lo hi) = lo := by
  have := lo.isLt
  apply BitVec.eq_of_toNat_eq
  simp only [lowByte, absAddress_toNat, BitVec.toNat_ofNat]
  omega

@[simp] theorem highByte_absAddress (lo hi : Byte) : highByte (absAddress lo hi) = hi := by
  have := lo.isLt
  have := hi.isLt
  apply BitVec.eq_of_toNat_eq
  simp only [highByte, absAddress_toNat, BitVec.toNat_ofNat]
  omega

end Sys2Proof
end

