-- ==== Sys2Proof/Laws/State.lean ====
section
/-! SUPPORT. One lemma per field per update of State, true by unfolding, so that no proof unfolds a record update. -/

namespace Sys2Proof.Machine

/-! `State.setA` -/

@[simp] theorem State.setA_regA (s : State) (v : Byte) : (s.setA v).regA = v := rfl
@[simp] theorem State.setA_regX (s : State) (v : Byte) : (s.setA v).regX = s.regX := rfl
@[simp] theorem State.setA_regY (s : State) (v : Byte) : (s.setA v).regY = s.regY := rfl
@[simp] theorem State.setA_regS (s : State) (v : Byte) : (s.setA v).regS = s.regS := rfl
@[simp] theorem State.setA_flags (s : State) (v : Byte) : (s.setA v).flags = s.flags := rfl
@[simp] theorem State.setA_pc (s : State) (v : Byte) : (s.setA v).pc = s.pc := rfl
@[simp] theorem State.setA_clock (s : State) (v : Byte) : (s.setA v).clock = s.clock := rfl
@[simp] theorem State.setA_lastInfo (s : State) (v : Byte) : (s.setA v).lastInfo = s.lastInfo := rfl
@[simp] theorem State.setA_infoDraws (s : State) (v : Byte) : (s.setA v).infoDraws = s.infoDraws := rfl
@[simp] theorem State.setA_mem (s : State) (v : Byte) : (s.setA v).mem = s.mem := rfl
@[simp] theorem State.setA_halted (s : State) (v : Byte) : (s.setA v).halted = s.halted := rfl

/-! `State.setX` -/

@[simp] theorem State.setX_regA (s : State) (v : Byte) : (s.setX v).regA = s.regA := rfl
@[simp] theorem State.setX_regX (s : State) (v : Byte) : (s.setX v).regX = v := rfl
@[simp] theorem State.setX_regY (s : State) (v : Byte) : (s.setX v).regY = s.regY := rfl
@[simp] theorem State.setX_regS (s : State) (v : Byte) : (s.setX v).regS = s.regS := rfl
@[simp] theorem State.setX_flags (s : State) (v : Byte) : (s.setX v).flags = s.flags := rfl
@[simp] theorem State.setX_pc (s : State) (v : Byte) : (s.setX v).pc = s.pc := rfl
@[simp] theorem State.setX_clock (s : State) (v : Byte) : (s.setX v).clock = s.clock := rfl
@[simp] theorem State.setX_lastInfo (s : State) (v : Byte) : (s.setX v).lastInfo = s.lastInfo := rfl
@[simp] theorem State.setX_infoDraws (s : State) (v : Byte) : (s.setX v).infoDraws = s.infoDraws := rfl
@[simp] theorem State.setX_mem (s : State) (v : Byte) : (s.setX v).mem = s.mem := rfl
@[simp] theorem State.setX_halted (s : State) (v : Byte) : (s.setX v).halted = s.halted := rfl

/-! `State.setY` -/

@[simp] theorem State.setY_regA (s : State) (v : Byte) : (s.setY v).regA = s.regA := rfl
@[simp] theorem State.setY_regX (s : State) (v : Byte) : (s.setY v).regX = s.regX := rfl
@[simp] theorem State.setY_regY (s : State) (v : Byte) : (s.setY v).regY = v := rfl
@[simp] theorem State.setY_regS (s : State) (v : Byte) : (s.setY v).regS = s.regS := rfl
@[simp] theorem State.setY_flags (s : State) (v : Byte) : (s.setY v).flags = s.flags := rfl
@[simp] theorem State.setY_pc (s : State) (v : Byte) : (s.setY v).pc = s.pc := rfl
@[simp] theorem State.setY_clock (s : State) (v : Byte) : (s.setY v).clock = s.clock := rfl
@[simp] theorem State.setY_lastInfo (s : State) (v : Byte) : (s.setY v).lastInfo = s.lastInfo := rfl
@[simp] theorem State.setY_infoDraws (s : State) (v : Byte) : (s.setY v).infoDraws = s.infoDraws := rfl
@[simp] theorem State.setY_mem (s : State) (v : Byte) : (s.setY v).mem = s.mem := rfl
@[simp] theorem State.setY_halted (s : State) (v : Byte) : (s.setY v).halted = s.halted := rfl

/-! `State.setS` -/

@[simp] theorem State.setS_regA (s : State) (v : Byte) : (s.setS v).regA = s.regA := rfl
@[simp] theorem State.setS_regX (s : State) (v : Byte) : (s.setS v).regX = s.regX := rfl
@[simp] theorem State.setS_regY (s : State) (v : Byte) : (s.setS v).regY = s.regY := rfl
@[simp] theorem State.setS_regS (s : State) (v : Byte) : (s.setS v).regS = v := rfl
@[simp] theorem State.setS_flags (s : State) (v : Byte) : (s.setS v).flags = s.flags := rfl
@[simp] theorem State.setS_pc (s : State) (v : Byte) : (s.setS v).pc = s.pc := rfl
@[simp] theorem State.setS_clock (s : State) (v : Byte) : (s.setS v).clock = s.clock := rfl
@[simp] theorem State.setS_lastInfo (s : State) (v : Byte) : (s.setS v).lastInfo = s.lastInfo := rfl
@[simp] theorem State.setS_infoDraws (s : State) (v : Byte) : (s.setS v).infoDraws = s.infoDraws := rfl
@[simp] theorem State.setS_mem (s : State) (v : Byte) : (s.setS v).mem = s.mem := rfl
@[simp] theorem State.setS_halted (s : State) (v : Byte) : (s.setS v).halted = s.halted := rfl

/-! `State.setFlags` -/

@[simp] theorem State.setFlags_regA (s : State) (f : Byte) : (s.setFlags f).regA = s.regA := rfl
@[simp] theorem State.setFlags_regX (s : State) (f : Byte) : (s.setFlags f).regX = s.regX := rfl
@[simp] theorem State.setFlags_regY (s : State) (f : Byte) : (s.setFlags f).regY = s.regY := rfl
@[simp] theorem State.setFlags_regS (s : State) (f : Byte) : (s.setFlags f).regS = s.regS := rfl
@[simp] theorem State.setFlags_flags (s : State) (f : Byte) : (s.setFlags f).flags = f := rfl
@[simp] theorem State.setFlags_pc (s : State) (f : Byte) : (s.setFlags f).pc = s.pc := rfl
@[simp] theorem State.setFlags_clock (s : State) (f : Byte) : (s.setFlags f).clock = s.clock := rfl
@[simp] theorem State.setFlags_lastInfo (s : State) (f : Byte) : (s.setFlags f).lastInfo = s.lastInfo := rfl
@[simp] theorem State.setFlags_infoDraws (s : State) (f : Byte) : (s.setFlags f).infoDraws = s.infoDraws := rfl
@[simp] theorem State.setFlags_mem (s : State) (f : Byte) : (s.setFlags f).mem = s.mem := rfl
@[simp] theorem State.setFlags_halted (s : State) (f : Byte) : (s.setFlags f).halted = s.halted := rfl

/-! `State.setPc` -/

@[simp] theorem State.setPc_regA (s : State) (a : Addr) : (s.setPc a).regA = s.regA := rfl
@[simp] theorem State.setPc_regX (s : State) (a : Addr) : (s.setPc a).regX = s.regX := rfl
@[simp] theorem State.setPc_regY (s : State) (a : Addr) : (s.setPc a).regY = s.regY := rfl
@[simp] theorem State.setPc_regS (s : State) (a : Addr) : (s.setPc a).regS = s.regS := rfl
@[simp] theorem State.setPc_flags (s : State) (a : Addr) : (s.setPc a).flags = s.flags := rfl
@[simp] theorem State.setPc_pc (s : State) (a : Addr) : (s.setPc a).pc = a := rfl
@[simp] theorem State.setPc_clock (s : State) (a : Addr) : (s.setPc a).clock = s.clock := rfl
@[simp] theorem State.setPc_lastInfo (s : State) (a : Addr) : (s.setPc a).lastInfo = s.lastInfo := rfl
@[simp] theorem State.setPc_infoDraws (s : State) (a : Addr) : (s.setPc a).infoDraws = s.infoDraws := rfl
@[simp] theorem State.setPc_mem (s : State) (a : Addr) : (s.setPc a).mem = s.mem := rfl
@[simp] theorem State.setPc_halted (s : State) (a : Addr) : (s.setPc a).halted = s.halted := rfl

/-! `State.sharedRule` -/

@[simp] theorem State.sharedRule_regA (s : State) (v : Byte) : (s.sharedRule v).regA = s.regA := rfl
@[simp] theorem State.sharedRule_regX (s : State) (v : Byte) : (s.sharedRule v).regX = s.regX := rfl
@[simp] theorem State.sharedRule_regY (s : State) (v : Byte) : (s.sharedRule v).regY = s.regY := rfl
@[simp] theorem State.sharedRule_regS (s : State) (v : Byte) : (s.sharedRule v).regS = s.regS := rfl
@[simp] theorem State.sharedRule_flags (s : State) (v : Byte) : (s.sharedRule v).flags = applyFlags s.flags v := rfl
@[simp] theorem State.sharedRule_pc (s : State) (v : Byte) : (s.sharedRule v).pc = s.pc := rfl
@[simp] theorem State.sharedRule_clock (s : State) (v : Byte) : (s.sharedRule v).clock = s.clock := rfl
@[simp] theorem State.sharedRule_lastInfo (s : State) (v : Byte) : (s.sharedRule v).lastInfo = s.lastInfo := rfl
@[simp] theorem State.sharedRule_infoDraws (s : State) (v : Byte) : (s.sharedRule v).infoDraws = s.infoDraws := rfl
@[simp] theorem State.sharedRule_mem (s : State) (v : Byte) : (s.sharedRule v).mem = s.mem := rfl
@[simp] theorem State.sharedRule_halted (s : State) (v : Byte) : (s.sharedRule v).halted = s.halted := rfl

/-! `State.advance` -/

@[simp] theorem State.advance_regA (s : State) (n : Nat) : (s.advance n).regA = s.regA := rfl
@[simp] theorem State.advance_regX (s : State) (n : Nat) : (s.advance n).regX = s.regX := rfl
@[simp] theorem State.advance_regY (s : State) (n : Nat) : (s.advance n).regY = s.regY := rfl
@[simp] theorem State.advance_regS (s : State) (n : Nat) : (s.advance n).regS = s.regS := rfl
@[simp] theorem State.advance_flags (s : State) (n : Nat) : (s.advance n).flags = s.flags := rfl
@[simp] theorem State.advance_pc (s : State) (n : Nat) : (s.advance n).pc = s.pc + BitVec.ofNat 16 n := rfl
@[simp] theorem State.advance_clock (s : State) (n : Nat) : (s.advance n).clock = s.clock := rfl
@[simp] theorem State.advance_lastInfo (s : State) (n : Nat) : (s.advance n).lastInfo = s.lastInfo := rfl
@[simp] theorem State.advance_infoDraws (s : State) (n : Nat) : (s.advance n).infoDraws = s.infoDraws := rfl
@[simp] theorem State.advance_mem (s : State) (n : Nat) : (s.advance n).mem = s.mem := rfl
@[simp] theorem State.advance_halted (s : State) (n : Nat) : (s.advance n).halted = s.halted := rfl

/-! `State.tick` -/

@[simp] theorem State.tick_regA (s : State) (op : Byte) : (s.tick op).regA = s.regA := rfl
@[simp] theorem State.tick_regX (s : State) (op : Byte) : (s.tick op).regX = s.regX := rfl
@[simp] theorem State.tick_regY (s : State) (op : Byte) : (s.tick op).regY = s.regY := rfl
@[simp] theorem State.tick_regS (s : State) (op : Byte) : (s.tick op).regS = s.regS := rfl
@[simp] theorem State.tick_flags (s : State) (op : Byte) : (s.tick op).flags = s.flags := rfl
@[simp] theorem State.tick_pc (s : State) (op : Byte) : (s.tick op).pc = s.pc := rfl
@[simp] theorem State.tick_clock (s : State) (op : Byte) :
    (s.tick op).clock =
      s.clock + BitVec.ofNat 64 (cost op) := rfl
@[simp] theorem State.tick_lastInfo (s : State) (op : Byte) : (s.tick op).lastInfo = s.lastInfo := rfl
@[simp] theorem State.tick_infoDraws (s : State) (op : Byte) : (s.tick op).infoDraws = s.infoDraws := rfl
@[simp] theorem State.tick_mem (s : State) (op : Byte) : (s.tick op).mem = s.mem := rfl
@[simp] theorem State.tick_halted (s : State) (op : Byte) : (s.tick op).halted = s.halted := rfl

/-! `State.finish` -/

@[simp] theorem State.finish_regA (s : State) (op : Byte) (n : Nat) : (s.finish op n).regA = s.regA := rfl
@[simp] theorem State.finish_regX (s : State) (op : Byte) (n : Nat) : (s.finish op n).regX = s.regX := rfl
@[simp] theorem State.finish_regY (s : State) (op : Byte) (n : Nat) : (s.finish op n).regY = s.regY := rfl
@[simp] theorem State.finish_regS (s : State) (op : Byte) (n : Nat) : (s.finish op n).regS = s.regS := rfl
@[simp] theorem State.finish_flags (s : State) (op : Byte) (n : Nat) : (s.finish op n).flags = s.flags := rfl
@[simp] theorem State.finish_pc (s : State) (op : Byte) (n : Nat) :
    (s.finish op n).pc =
      s.pc + BitVec.ofNat 16 n := rfl
@[simp] theorem State.finish_clock (s : State) (op : Byte) (n : Nat) :
    (s.finish op n).clock =
      s.clock + BitVec.ofNat 64 (cost op) := rfl
@[simp] theorem State.finish_lastInfo (s : State) (op : Byte) (n : Nat) : (s.finish op n).lastInfo = s.lastInfo := rfl
@[simp] theorem State.finish_infoDraws (s : State) (op : Byte) (n : Nat) :
    (s.finish op n).infoDraws =
      s.infoDraws := rfl
@[simp] theorem State.finish_mem (s : State) (op : Byte) (n : Nat) : (s.finish op n).mem = s.mem := rfl
@[simp] theorem State.finish_halted (s : State) (op : Byte) (n : Nat) : (s.finish op n).halted = s.halted := rfl

/-! `State.halt` -/

@[simp] theorem State.halt_regA (s : State) : (s.halt).regA = s.regA := rfl
@[simp] theorem State.halt_regX (s : State) : (s.halt).regX = s.regX := rfl
@[simp] theorem State.halt_regY (s : State) : (s.halt).regY = s.regY := rfl
@[simp] theorem State.halt_regS (s : State) : (s.halt).regS = s.regS := rfl
@[simp] theorem State.halt_flags (s : State) : (s.halt).flags = s.flags := rfl
@[simp] theorem State.halt_pc (s : State) : (s.halt).pc = s.pc := rfl
@[simp] theorem State.halt_clock (s : State) : (s.halt).clock = s.clock := rfl
@[simp] theorem State.halt_lastInfo (s : State) : (s.halt).lastInfo = s.lastInfo := rfl
@[simp] theorem State.halt_infoDraws (s : State) : (s.halt).infoDraws = s.infoDraws := rfl
@[simp] theorem State.halt_mem (s : State) : (s.halt).mem = s.mem := rfl
@[simp] theorem State.halt_halted (s : State) : (s.halt).halted = true := rfl

/-! `State.noteInstruction` -/

@[simp] theorem State.noteInstruction_regA (s : State) (i : Instr) (b : State) : (s.noteInstruction i b).regA = s.regA := rfl
@[simp] theorem State.noteInstruction_regX (s : State) (i : Instr) (b : State) : (s.noteInstruction i b).regX = s.regX := rfl
@[simp] theorem State.noteInstruction_regY (s : State) (i : Instr) (b : State) : (s.noteInstruction i b).regY = s.regY := rfl
@[simp] theorem State.noteInstruction_regS (s : State) (i : Instr) (b : State) : (s.noteInstruction i b).regS = s.regS := rfl
@[simp] theorem State.noteInstruction_flags (s : State) (i : Instr) (b : State) : (s.noteInstruction i b).flags = s.flags := rfl
@[simp] theorem State.noteInstruction_pc (s : State) (i : Instr) (b : State) : (s.noteInstruction i b).pc = s.pc := rfl
@[simp] theorem State.noteInstruction_clock (s : State) (i : Instr) (b : State) : (s.noteInstruction i b).clock = s.clock := rfl
@[simp] theorem State.noteInstruction_lastInfo (s : State) (i : Instr) (b : State) :
    (s.noteInstruction i b).lastInfo =
      Config.instructionInfo s.infoDraws (infoContext i b s) := rfl
@[simp] theorem State.noteInstruction_infoDraws (s : State) (i : Instr) (b : State) :
    (s.noteInstruction i b).infoDraws =
      s.infoDraws + 1 := rfl
@[simp] theorem State.noteInstruction_mem (s : State) (i : Instr) (b : State) : (s.noteInstruction i b).mem = s.mem := rfl
@[simp] theorem State.noteInstruction_halted (s : State) (i : Instr) (b : State) : (s.noteInstruction i b).halted = s.halted := rfl

/-! `State.withBytesAtPc` -/

@[simp] theorem State.withBytesAtPc_regA (s : State) (bs : List Byte) : (s.withBytesAtPc bs).regA = s.regA := rfl
@[simp] theorem State.withBytesAtPc_regX (s : State) (bs : List Byte) : (s.withBytesAtPc bs).regX = s.regX := rfl
@[simp] theorem State.withBytesAtPc_regY (s : State) (bs : List Byte) : (s.withBytesAtPc bs).regY = s.regY := rfl
@[simp] theorem State.withBytesAtPc_regS (s : State) (bs : List Byte) : (s.withBytesAtPc bs).regS = s.regS := rfl
@[simp] theorem State.withBytesAtPc_flags (s : State) (bs : List Byte) : (s.withBytesAtPc bs).flags = s.flags := rfl
@[simp] theorem State.withBytesAtPc_pc (s : State) (bs : List Byte) : (s.withBytesAtPc bs).pc = s.pc := rfl
@[simp] theorem State.withBytesAtPc_clock (s : State) (bs : List Byte) : (s.withBytesAtPc bs).clock = s.clock := rfl
@[simp] theorem State.withBytesAtPc_lastInfo (s : State) (bs : List Byte) :
    (s.withBytesAtPc bs).lastInfo =
      s.lastInfo := rfl
@[simp] theorem State.withBytesAtPc_infoDraws (s : State) (bs : List Byte) :
    (s.withBytesAtPc bs).infoDraws =
      s.infoDraws := rfl
@[simp] theorem State.withBytesAtPc_mem (s : State) (bs : List Byte) :
    (s.withBytesAtPc bs).mem =
      (s.mem.grow (s.pc.toNat + bs.length)).placeBytes s.pc.toNat bs := rfl
@[simp] theorem State.withBytesAtPc_halted (s : State) (bs : List Byte) : (s.withBytesAtPc bs).halted = false := rfl

/-! `State.branch`: only `pc` depends on the condition. -/

@[simp] theorem State.branch_regA (s : State) (op : Byte) (c : Bool) (off : Byte) :
    (s.branch op c off).regA = s.regA := by
  cases c <;> rfl
@[simp] theorem State.branch_regX (s : State) (op : Byte) (c : Bool) (off : Byte) :
    (s.branch op c off).regX = s.regX := by
  cases c <;> rfl
@[simp] theorem State.branch_regY (s : State) (op : Byte) (c : Bool) (off : Byte) :
    (s.branch op c off).regY = s.regY := by
  cases c <;> rfl
@[simp] theorem State.branch_regS (s : State) (op : Byte) (c : Bool) (off : Byte) :
    (s.branch op c off).regS = s.regS := by
  cases c <;> rfl
@[simp] theorem State.branch_flags (s : State) (op : Byte) (c : Bool) (off : Byte) :
    (s.branch op c off).flags = s.flags := by
  cases c <;> rfl
@[simp] theorem State.branch_pc (s : State) (op : Byte) (c : Bool) (off : Byte) :
    (s.branch op c off).pc = if c then branchTarget s.pc off else s.pc + BitVec.ofNat 16 2 := by
  cases c <;> rfl
@[simp] theorem State.branch_clock (s : State) (op : Byte) (c : Bool) (off : Byte) :
    (s.branch op c off).clock = s.clock + BitVec.ofNat 64 (cost op) := by
  cases c <;> rfl
@[simp] theorem State.branch_lastInfo (s : State) (op : Byte) (c : Bool) (off : Byte) :
    (s.branch op c off).lastInfo = s.lastInfo := by
  cases c <;> rfl
@[simp] theorem State.branch_infoDraws (s : State) (op : Byte) (c : Bool) (off : Byte) :
    (s.branch op c off).infoDraws = s.infoDraws := by
  cases c <;> rfl
@[simp] theorem State.branch_mem (s : State) (op : Byte) (c : Bool) (off : Byte) :
    (s.branch op c off).mem = s.mem := by
  cases c <;> rfl
@[simp] theorem State.branch_halted (s : State) (op : Byte) (c : Bool) (off : Byte) :
    (s.branch op c off).halted = s.halted := by
  cases c <;> rfl

end Sys2Proof.Machine
end

