-- ==== Sys2Proof/Laws/Memory.lean ====
section
/-! SUPPORT. The laws of Memory: a read after a write, everywhere else untouched, the canonical form kept by every
operation, and what an image loaded reads as. -/

namespace Sys2Proof.Machine

/-! ## Lists of cells -/

theorem cellsByte_filter_of_keep (a : Nat) (keep : Host.Cell → Bool) (cells : List Host.Cell)
    (h : ∀ c ∈ cells, c.1 = a → keep c = true) : cellsByte a (cells.filter keep) = cellsByte a cells := by
  induction cells with
  | nil => rfl
  | cons c rest ih =>
    have ih := ih fun d hd => h d (List.mem_cons_of_mem _ hd)
    by_cases hc : keep c = true
    · simp [List.filter_cons_of_pos hc, cellsByte, ih]
    · have hne : c.1 ≠ a := fun e => hc (h c List.mem_cons_self e)
      simp [List.filter_cons_of_neg hc, cellsByte, hne, ih]

theorem cellsByte_of_absent (a : Nat) (cells : List Host.Cell) (h : ∀ c ∈ cells, c.1 ≠ a) :
    cellsByte a cells = unlistedByte := by
  induction cells with
  | nil => rfl
  | cons c rest ih =>
    simp [cellsByte, h c List.mem_cons_self, ih fun d hd => h d (List.mem_cons_of_mem _ hd)]

theorem mem_cellsErase {a : Nat} {cells : List Host.Cell} {c : Host.Cell} :
    c ∈ cellsErase a cells ↔ c ∈ cells ∧ c.1 ≠ a := by
  simp [cellsErase]

theorem cellsByte_erase_same (a : Nat) (cells : List Host.Cell) :
    cellsByte a (cellsErase a cells) = unlistedByte :=
  cellsByte_of_absent a _ fun _ hc => (mem_cellsErase.mp hc).2

theorem cellsByte_erase_other {a b : Nat} (h : b ≠ a) (cells : List Host.Cell) :
    cellsByte b (cellsErase a cells) = cellsByte b cells :=
  cellsByte_filter_of_keep b _ cells fun c _ e => by simp [e, h]

theorem cellsByte_insert_same (a : Nat) (v : Byte) (cells : List Host.Cell) (h : ∀ c ∈ cells, c.1 ≠ a) :
    cellsByte a (cellsInsert a v cells) = v := by
  induction cells with
  | nil => simp [cellsInsert, cellsByte]
  | cons c rest ih =>
    unfold cellsInsert
    split
    · simp [cellsByte]
    · simp [cellsByte, h c List.mem_cons_self, ih fun d hd => h d (List.mem_cons_of_mem _ hd)]

theorem cellsByte_insert_other {a b : Nat} (hb : b ≠ a) (v : Byte) (cells : List Host.Cell) :
    cellsByte b (cellsInsert a v cells) = cellsByte b cells := by
  induction cells with
  | nil => simp [cellsInsert, cellsByte, Ne.symm hb]
  | cons c rest ih =>
    unfold cellsInsert
    split
    · simp [cellsByte, Ne.symm hb]
    · simp [cellsByte, ih]

/-- A read after a write of the same address gives the value written, in every list. -/
theorem cellsByte_put_same (a : Nat) (v : Byte) (cells : List Host.Cell) : cellsByte a (cellsPut a v cells) = v := by
  unfold cellsPut
  split
  case isTrue h => rw [cellsByte_erase_same, h]
  case isFalse => exact cellsByte_insert_same a v _ fun c hc => (mem_cellsErase.mp hc).2

/-- A write leaves every other address alone, in every list. -/
theorem cellsByte_put_other {a b : Nat} (h : b ≠ a) (v : Byte) (cells : List Host.Cell) :
    cellsByte b (cellsPut a v cells) = cellsByte b cells := by
  unfold cellsPut
  split
  · exact cellsByte_erase_other h cells
  · rw [cellsByte_insert_other h, cellsByte_erase_other h]

theorem mem_cellsInsert {a : Nat} {v : Byte} {cells : List Host.Cell} {c : Host.Cell} :
    c ∈ cellsInsert a v cells ↔ c = (a, v) ∨ c ∈ cells := by
  induction cells with
  | nil => simp [cellsInsert]
  | cons d rest ih =>
    unfold cellsInsert
    split
    · simp
    · simp [ih]; tauto

theorem cellsErase_sorted (a : Nat) {cells : List Host.Cell} (h : (cells.map Prod.fst).Pairwise (· < ·)) :
    ((cellsErase a cells).map Prod.fst).Pairwise (· < ·) :=
  h.sublist (List.filter_sublist.map _)

theorem cellsInsert_sorted (a : Nat) (v : Byte) {cells : List Host.Cell}
    (h : (cells.map Prod.fst).Pairwise (· < ·)) (habs : ∀ c ∈ cells, c.1 ≠ a) :
    ((cellsInsert a v cells).map Prod.fst).Pairwise (· < ·) := by
  induction cells with
  | nil => simp [cellsInsert]
  | cons c rest ih =>
    have hc : c.1 ≠ a := habs c List.mem_cons_self
    rw [List.map_cons, List.pairwise_cons] at h
    obtain ⟨hlt, hrest⟩ := h
    have hlt' : ∀ d ∈ rest, c.1 < d.1 := fun d hd => hlt d.1 (List.mem_map_of_mem hd)
    unfold cellsInsert
    split
    case isTrue hac =>
      simp only [List.map_cons, List.pairwise_cons, List.mem_cons, List.mem_map, forall_eq_or_imp]
      exact ⟨⟨hac, by rintro _ ⟨d, hd, rfl⟩; have := hlt' d hd; omega⟩,
        by rintro _ ⟨d, hd, rfl⟩; exact hlt' d hd, hrest⟩
    case isFalse hac =>
      simp only [List.map_cons, List.pairwise_cons, List.mem_map]
      refine ⟨?_, ih hrest fun d hd => habs d (List.mem_cons_of_mem _ hd)⟩
      rintro _ ⟨d, hd, rfl⟩
      rcases mem_cellsInsert.mp hd with rfl | hd
      · show c.1 < a; omega
      · exact hlt' d hd

/-! ## Memory -/

@[simp] theorem Memory.put_size (m : Memory) (a : Nat) (v : Byte) : (m.put a v).size = m.size := rfl

@[simp] theorem Memory.byteAt_put_same (m : Memory) (a : Nat) (v : Byte) : (m.put a v).byteAt a = v :=
  cellsByte_put_same a v m.cells

theorem Memory.byteAt_put_other (m : Memory) {a b : Nat} (h : b ≠ a) (v : Byte) :
    (m.put a v).byteAt b = m.byteAt b :=
  cellsByte_put_other h v m.cells

/-- A write inside the array keeps the canonical form. -/
theorem Memory.put_wf {m : Memory} (h : m.wf) {a : Nat} (ha : a < m.size) (v : Byte) : (m.put a v).wf := by
  obtain ⟨hs, hc⟩ := h
  unfold Memory.wf Memory.put cellsPut
  split
  · exact ⟨cellsErase_sorted a hs, fun c hm => hc c (mem_cellsErase.mp hm).1⟩
  case isFalse hv =>
    refine ⟨cellsInsert_sorted a v (cellsErase_sorted a hs) fun c hm => (mem_cellsErase.mp hm).2, ?_⟩
    intro c hm
    rcases mem_cellsInsert.mp hm with rfl | hm
    · exact ⟨ha, hv⟩
    · exact hc c (mem_cellsErase.mp hm).1

/-- Growing the array keeps the canonical form. -/
theorem Memory.grow_wf {m : Memory} (h : m.wf) (n : Nat) : (m.grow n).wf :=
  ⟨h.1, fun c hc => ⟨lt_of_lt_of_le (h.2 c hc).1 (le_max_left _ _), (h.2 c hc).2⟩⟩

@[simp] theorem Memory.placeBytes_size (m : Memory) (a : Nat) (bs : List Byte) :
    (m.placeBytes a bs).size = m.size := by
  induction bs generalizing m a with
  | nil => rfl
  | cons b bs ih => unfold Memory.placeBytes; rw [ih]; split <;> rfl

/-- Placing bytes keeps the canonical form. -/
theorem Memory.placeBytes_wf {m : Memory} (h : m.wf) (a : Nat) (bs : List Byte) : (m.placeBytes a bs).wf := by
  induction bs generalizing m a with
  | nil => exact h
  | cons b bs ih =>
    unfold Memory.placeBytes
    split
    case isTrue ha => exact ih (Memory.put_wf h ha b) _
    case isFalse => exact ih h _

/-- A byte placed at an address in range reads back; addresses before the placed bytes are untouched. -/
theorem Memory.byteAt_placeBytes_before (m : Memory) {a b : Nat} (h : b < a) (bs : List Byte) :
    (m.placeBytes a bs).byteAt b = m.byteAt b := by
  induction bs generalizing m a with
  | nil => rfl
  | cons v bs ih =>
    unfold Memory.placeBytes
    rw [ih _ (by omega)]
    split
    · exact Memory.byteAt_put_other m (by omega) v
    · rfl

theorem Memory.byteAt_placeBytes (m : Memory) (a k : Nat) (bs : List Byte) (v : Byte) (hk : bs[k]? = some v)
    (hin : a + k < m.size) : (m.placeBytes a bs).byteAt (a + k) = v := by
  induction bs generalizing m a k with
  | nil => simp at hk
  | cons b bs ih =>
    unfold Memory.placeBytes
    cases k with
    | zero =>
      simp only [List.getElem?_cons_zero, Option.some.injEq] at hk
      subst hk
      have ha : a < m.size := by omega
      show Memory.byteAt _ a = b
      rw [Memory.byteAt_placeBytes_before _ (show a < a + 1 by omega)]
      simp [ha]
    | succ k =>
      have hsize : (if a < m.size then m.put a b else m).size = m.size := by split <;> rfl
      have := ih (if a < m.size then m.put a b else m) (a + 1) k (by simpa using hk) (by rw [hsize]; omega)
      rwa [show a + (k + 1) = a + 1 + k by omega]

/-! ## The access primitives -/

theorem memRead_in {s : State} {a : Nat} (h : a < s.mem.size) : memRead s a = .ok (s.mem.byteAt a) := by
  simp [memRead, h]

theorem memRead_out {s : State} {a : Nat} (h : s.mem.size ≤ a) : memRead s a = .error (.addressOutOfRange a) := by
  simp [memRead, h]

theorem memRead_ok_iff {s : State} {a : Nat} {b : Byte} :
    memRead s a = .ok b ↔ a < s.mem.size ∧ s.mem.byteAt a = b := by
  unfold memRead
  split <;> simp <;> omega

theorem memRead_error_iff {s : State} {a : Nat} {f : Fault} :
    memRead s a = .error f ↔ s.mem.size ≤ a ∧ f = .addressOutOfRange a := by
  unfold memRead
  split <;> simp_all [eq_comm]

/-- A read looks at Memory alone. -/
theorem memRead_congr {s t : State} (h : t.mem = s.mem) (a : Nat) : memRead t a = memRead s a := by
  simp [memRead, h]

theorem memWrite_in {s : State} {a : Nat} (h : a < s.mem.size) (v : Byte) :
    memWrite s a v = .ok { s with mem := s.mem.put a v } := by
  simp [memWrite, h]

theorem memWrite_out {s : State} {a : Nat} (h : s.mem.size ≤ a) (v : Byte) :
    memWrite s a v = .error (.addressOutOfRange a) := by
  simp [memWrite, h]

/-! ## Loaded images -/

theorem le_of_mem_cellsOfBytes {n : Nat} {bs : List Byte} {c : Host.Cell} (h : c ∈ cellsOfBytes n bs) :
    n ≤ c.1 ∧ c.1 < n + bs.length ∧ c.2 ≠ unlistedByte := by
  induction bs generalizing n with
  | nil => simp [cellsOfBytes] at h
  | cons b bs ih =>
    unfold cellsOfBytes at h
    split at h
    · have := ih h
      simp only [List.length_cons]
      exact ⟨by omega, by omega, this.2.2⟩
    case isFalse hb =>
      rcases List.mem_cons.mp h with rfl | h
      · exact ⟨le_refl _, by simp, hb⟩
      · have := ih h
        simp only [List.length_cons]
        exact ⟨by omega, by omega, this.2.2⟩

theorem cellsOfBytes_sorted (n : Nat) (bs : List Byte) :
    ((cellsOfBytes n bs).map Prod.fst).Pairwise (· < ·) := by
  induction bs generalizing n with
  | nil => simp [cellsOfBytes]
  | cons b bs ih =>
    unfold cellsOfBytes
    split
    · exact ih _
    · simp only [List.map_cons, List.pairwise_cons, List.mem_map]
      exact ⟨by rintro _ ⟨c, hc, rfl⟩; exact (le_of_mem_cellsOfBytes hc).1, ih _⟩

theorem Memory.ofImage_wf (image : List Byte) : (Memory.ofImage image).wf :=
  ⟨cellsOfBytes_sorted 0 image, fun c hc => by
    have := le_of_mem_cellsOfBytes hc
    exact ⟨by simpa [Memory.ofImage] using this.2.1, this.2.2⟩⟩

theorem cellsByte_cellsOfBytes (n k : Nat) (bs : List Byte) (b : Byte) (h : bs[k]? = some b) :
    cellsByte (n + k) (cellsOfBytes n bs) = b := by
  induction bs generalizing n k with
  | nil => simp at h
  | cons v bs ih =>
    unfold cellsOfBytes
    cases k with
    | zero =>
      simp only [List.getElem?_cons_zero, Option.some.injEq] at h
      subst h
      split
      case isTrue hv =>
        rw [cellsByte_of_absent _ _ fun c hc => by have := (le_of_mem_cellsOfBytes hc).1; omega, hv]
      · simp [cellsByte]
    | succ k =>
      have := ih (n + 1) k (by simpa using h)
      rw [show n + 1 + k = n + (k + 1) by omega] at this
      split
      · exact this
      · rw [cellsByte, if_neg (by simp), this]

/-- The byte at `a` of a loaded image is the image's byte. -/
theorem Memory.byteAt_ofImage (image : List Byte) (a : Nat) (b : Byte) (h : image[a]? = some b) :
    (Memory.ofImage image).byteAt a = b := by
  simpa [Memory.byteAt, Memory.ofImage] using cellsByte_cellsOfBytes 0 a image b h

theorem cellsOfBytes_zeros (n k : Nat) : cellsOfBytes n (List.replicate k unlistedByte) = [] := by
  induction k generalizing n with
  | zero => rfl
  | succ k ih => simp [List.replicate_succ, cellsOfBytes, ih]

end Sys2Proof.Machine
end

