-- ==== Sys2Proof/Laws/PerInstr.lean ====
section
/-! SUPPORT. The family `Encoding`: the operand bytes of each well-formed instruction are as many as its opcode
says (spec 30 R57). -/

namespace Sys2Proof.Laws.Encoding

/-- The operand bytes the encoder writes are as many as the decoder will ask for. -/
def Statement (i : Instr) : Prop := i.wf = true → (operandBytes i).length = operandCount (opcodeOf i)

theorem ldaImm (v : Byte) : Statement (.ldaImm v) := fun _ => rfl
theorem ldaAbs (ea : Addr) : Statement (.ldaAbs ea) := fun _ => rfl
theorem ldx (v : Byte) : Statement (.ldx v) := fun _ => rfl
theorem ldy (v : Byte) : Statement (.ldy v) := fun _ => rfl
theorem sta (ea : Addr) : Statement (.sta ea) := fun _ => rfl
theorem tax : Statement .tax := fun _ => rfl
theorem tya : Statement .tya := fun _ => rfl
theorem txs : Statement .txs := fun _ => rfl
theorem adc (v : Byte) : Statement (.adc v) := fun _ => rfl
theorem eor (v : Byte) : Statement (.eor v) := fun _ => rfl
theorem cmp (v : Byte) : Statement (.cmp v) := fun _ => rfl
theorem dex : Statement .dex := fun _ => rfl
theorem dey : Statement .dey := fun _ => rfl
theorem clc : Statement .clc := fun _ => rfl
theorem cld : Statement .cld := fun _ => rfl
theorem bpl (off : Byte) : Statement (.bpl off) := fun _ => rfl
theorem bne (off : Byte) : Statement (.bne off) := fun _ => rfl
theorem beq (off : Byte) : Statement (.beq off) := fun _ => rfl
theorem jmp (ea : Addr) : Statement (.jmp ea) := fun _ => rfl
theorem nop (opcode : Byte) : Statement (.nop opcode) := by
  intro h
  have hop : opcode ∉ listedOpcodes := by
    rw [← isListed_iff]; simpa [Instr.wf] using h
  show 0 = operandCount opcode
  simp [operandCount, opcodeMap_of_unlisted hop]

end Sys2Proof.Laws.Encoding
end

