-- ==== Sys2Proof/Laws/Fetch.lean ====
section
/-! SUPPORT. What the fetch of an instruction's bytes can answer, and when. -/

namespace Sys2Proof.Machine

/-- Everything `readBytes` can answer with bytes: as many as asked for, each the byte in Memory. -/
theorem readBytes_ok {s : State} {a n : Nat} {bs : List Byte} (h : readBytes s a n = .ok bs) :
    bs.length = n ∧ BytesAt s a bs := by
  induction n generalizing a bs with
  | zero =>
    simp only [readBytes, Except.ok.injEq] at h
    subst h
    exact ⟨rfl, fun k b hk => by simp at hk⟩
  | succ n ih =>
    unfold readBytes at h
    split at h
    · simp at h
    case h_2 b hb =>
      split at h
      · simp at h
      case h_2 tail ht =>
        simp only [Except.ok.injEq] at h
        subst h
        obtain ⟨hlen, hat⟩ := ih ht
        refine ⟨by simp [hlen], fun k v hk => ?_⟩
        cases k with
        | zero => simp only [List.getElem?_cons_zero, Option.some.injEq] at hk; subst hk; exact hb
        | succ k =>
          rw [show a + (k + 1) = a + 1 + k by omega]
          exact hat k v (by simpa using hk)

/-- Bytes that stand in Memory are what `readBytes` reads. -/
theorem readBytes_of_bytesAt {s : State} {a : Nat} {bs : List Byte} (h : BytesAt s a bs) :
    readBytes s a bs.length = .ok bs := by
  induction bs generalizing a with
  | nil => rfl
  | cons b bs ih =>
    have hb : memRead s a = .ok b := h 0 b rfl
    have hrest : BytesAt s (a + 1) bs := fun k v hk => by
      rw [show a + 1 + k = a + (k + 1) by omega]
      exact h (k + 1) v (by simpa using hk)
    simp [readBytes, hb, ih hrest]

/-- `readBytes` faults at the first address out of range, and only there. -/
theorem readBytes_error {s : State} {a n : Nat} {f : Fault} (h : readBytes s a n = .error f) :
    ∃ k, k < n ∧ f = .addressOutOfRange (a + k) ∧ s.mem.size ≤ a + k := by
  induction n generalizing a with
  | zero => simp [readBytes] at h
  | succ n ih =>
    unfold readBytes at h
    split at h
    case h_1 g hg =>
      obtain ⟨hs, hf⟩ := memRead_error_iff.mp hg
      simp only [Except.error.injEq] at h
      exact ⟨0, by omega, by rw [← h, hf]; rfl, by omega⟩
    case h_2 =>
      split at h
      case h_1 g hg =>
        simp only [Except.error.injEq] at h
        rw [h] at hg
        obtain ⟨k, hk, hf, hs⟩ := ih hg
        exact ⟨k + 1, by omega, by rw [hf]; congr 1; omega, by omega⟩
      · simp at h

theorem readBytes_fault_at {s : State} {a n k : Nat} (hk : k < n) (hin : ∀ j, j < k → a + j < s.mem.size)
    (hout : s.mem.size ≤ a + k) : readBytes s a n = .error (.addressOutOfRange (a + k)) := by
  induction n generalizing a k with
  | zero => omega
  | succ n ih =>
    unfold readBytes
    cases k with
    | zero => simp [memRead_out (show s.mem.size ≤ a from hout)]
    | succ k =>
      rw [memRead_in (show a < s.mem.size from hin 0 (by omega))]
      have := ih (a := a + 1) (k := k) (by omega)
        (fun j hj => by have := hin (j + 1) (by omega); omega) (by omega)
      simp only [this]
      congr 2
      omega

/-- Everything a completed fetch says. -/
theorem fetch_ok {s : State} {bytes : List Byte} (h : fetch s = .ok bytes) :
    ∃ op operands, bytes = op :: operands ∧ operands.length = operandCount op ∧
      memRead s s.pc.toNat = .ok op ∧ BytesAt s s.pc.toNat bytes := by
  unfold fetch at h
  split at h
  · simp at h
  case h_2 op hop =>
    split at h
    · simp at h
    case h_2 operands ho =>
      simp only [Except.ok.injEq] at h
      subst h
      obtain ⟨hlen, hat⟩ := readBytes_ok ho
      refine ⟨op, operands, rfl, hlen, hop, fun k b hk => ?_⟩
      cases k with
      | zero => simp only [List.getElem?_cons_zero, Option.some.injEq] at hk; subst hk; exact hop
      | succ k =>
        rw [show s.pc.toNat + (k + 1) = s.pc.toNat + 1 + k by omega]
        exact hat k b (by simpa using hk)

/-- An opcode and as many operand bytes as it has, standing at `pc`, are what the fetch returns. -/
theorem fetch_of_bytesAt {s : State} {op : Byte} {operands : List Byte}
    (hlen : operands.length = operandCount op) (h : BytesAt s s.pc.toNat (op :: operands)) :
    fetch s = .ok (op :: operands) := by
  have hop : memRead s s.pc.toNat = .ok op := h 0 op rfl
  have hrest : BytesAt s (s.pc.toNat + 1) operands := fun k b hk => by
    rw [show s.pc.toNat + 1 + k = s.pc.toNat + (k + 1) by omega]
    exact h (k + 1) b (by simpa using hk)
  simp [fetch, hop, ← hlen, readBytes_of_bytesAt hrest]

/-- Every way the fetch faults: at the opcode byte or at one operand byte. -/
theorem fetch_error {s : State} {f : Fault} (h : fetch s = .error f) :
    (f = .addressOutOfRange s.pc.toNat ∧ s.mem.size ≤ s.pc.toNat) ∨
    ∃ op k, memRead s s.pc.toNat = .ok op ∧ k < operandCount op ∧
      f = .addressOutOfRange (s.pc.toNat + 1 + k) ∧ s.mem.size ≤ s.pc.toNat + 1 + k := by
  unfold fetch at h
  split at h
  case h_1 g hg =>
    obtain ⟨hs, hf⟩ := memRead_error_iff.mp hg
    simp only [Except.error.injEq] at h
    exact .inl ⟨by rw [← h, hf], hs⟩
  case h_2 op hop =>
    split at h
    case h_1 g hg =>
      simp only [Except.error.injEq] at h
      obtain ⟨k, hk, hf, hs⟩ := readBytes_error hg
      exact .inr ⟨op, k, hop, hk, by rw [← h, hf], hs⟩
    · simp at h

theorem fetch_out {s : State} (h : s.mem.size ≤ s.pc.toNat) : fetch s = .error (.addressOutOfRange s.pc.toNat) := by
  simp [fetch, memRead_out h]

theorem fetch_operand_out {s : State} {op : Byte} {k : Nat} (hop : memRead s s.pc.toNat = .ok op) (hk1 : 1 ≤ k)
    (hk : k ≤ operandCount op) (hin : ∀ j, j < k → s.pc.toNat + j < s.mem.size)
    (hout : s.mem.size ≤ s.pc.toNat + k) : fetch s = .error (.addressOutOfRange (s.pc.toNat + k)) := by
  have h := readBytes_fault_at (s := s) (a := s.pc.toNat + 1) (n := operandCount op) (k := k - 1) (by omega)
    (fun j hj => by have := hin (j + 1) (by omega); omega) (by omega)
  rw [show s.pc.toNat + 1 + (k - 1) = s.pc.toNat + k by omega] at h
  simp [fetch, hop, h]

end Sys2Proof.Machine
end

