-- ==== Sys2Proof/Laws/Step.lean ====
section
/-! SUPPORT. What `exec` and `step` can do, said once: later proofs cite these and do not unfold either. -/

namespace Sys2Proof.Machine

/-- `exec` of the one instruction that stores, in and out of range. -/
theorem exec_sta_in {s : State} {ea : Addr} (h : dataAddress ea < s.mem.size) :
    exec (.sta ea) s = .next (({ s with mem := s.mem.put (dataAddress ea) s.regA } : State).finish 0x8D 3) := by
  simp [exec, execSta, memWrite_in h]

theorem exec_sta_out {s : State} {ea : Addr} (h : s.mem.size ≤ dataAddress ea) :
    exec (.sta ea) s = .fault (.addressOutOfRange (dataAddress ea)) := by
  simp [exec, execSta, memWrite_out h]

/-- `exec` of the one instruction that reads data, in and out of range. -/
theorem exec_ldaAbs_in {s : State} {ea : Addr} (h : dataAddress ea < s.mem.size) :
    exec (.ldaAbs ea) s =
      .next (((s.setA (s.mem.byteAt (dataAddress ea))).sharedRule (s.mem.byteAt (dataAddress ea))).finish 0xAD 3) := by
  simp [exec, execLdaAbs, memRead_in h]

theorem exec_ldaAbs_out {s : State} {ea : Addr} (h : s.mem.size ≤ dataAddress ea) :
    exec (.ldaAbs ea) s = .fault (.addressOutOfRange (dataAddress ea)) := by
  simp [exec, execLdaAbs, memRead_out h]

/-- Every way a handler ends: it completes, or its data address is out of range. -/
theorem exec_cases (i : Instr) (s : State) :
    (∃ t, exec i s = .next t) ∨
    ∃ ea, (i = .ldaAbs ea ∨ i = .sta ea) ∧ s.mem.size ≤ dataAddress ea ∧
      exec i s = .fault (.addressOutOfRange (dataAddress ea)) := by
  cases i with
  | ldaAbs ea =>
    rcases Nat.lt_or_ge (dataAddress ea) s.mem.size with h | h
    · exact .inl ⟨_, exec_ldaAbs_in h⟩
    · exact .inr ⟨ea, .inl rfl, h, exec_ldaAbs_out h⟩
  | sta ea =>
    rcases Nat.lt_or_ge (dataAddress ea) s.mem.size with h | h
    · exact .inl ⟨_, exec_sta_in h⟩
    · exact .inr ⟨ea, .inr rfl, h, exec_sta_out h⟩
  | _ => exact .inl ⟨_, rfl⟩

/-- What a completed handler does to Memory: nothing, or the one byte of a store. -/
theorem exec_mem {i : Instr} {s t : State} (h : exec i s = .next t) :
    t.mem = s.mem ∨
    ∃ ea, i = .sta ea ∧ dataAddress ea < s.mem.size ∧ t.mem = s.mem.put (dataAddress ea) s.regA := by
  cases i with
  | ldaAbs ea =>
    rcases Nat.lt_or_ge (dataAddress ea) s.mem.size with hin | hout
    · rw [exec_ldaAbs_in hin] at h
      cases h
      exact .inl rfl
    · rw [exec_ldaAbs_out hout] at h
      cases h
  | sta ea =>
    rcases Nat.lt_or_ge (dataAddress ea) s.mem.size with hin | hout
    · rw [exec_sta_in hin] at h
      cases h
      exact .inr ⟨ea, rfl, hin, rfl⟩
    · rw [exec_sta_out hout] at h
      cases h
  | bpl off => cases h; exact .inl (State.branch_mem ..)
  | bne off => cases h; exact .inl (State.branch_mem ..)
  | beq off => cases h; exact .inl (State.branch_mem ..)
  | _ => cases h; exact .inl rfl

/-- A completed handler adds the cost of its opcode to the clock (40 R80). -/
theorem exec_clock {i : Instr} {s t : State} (h : exec i s = .next t) :
    t.clock = s.clock + BitVec.ofNat 64 (cost (opcodeOf i)) := by
  cases i with
  | ldaAbs ea =>
    rcases Nat.lt_or_ge (dataAddress ea) s.mem.size with hin | hout
    · rw [exec_ldaAbs_in hin] at h
      cases h
      rfl
    · rw [exec_ldaAbs_out hout] at h
      cases h
  | sta ea =>
    rcases Nat.lt_or_ge (dataAddress ea) s.mem.size with hin | hout
    · rw [exec_sta_in hin] at h
      cases h
      rfl
    · rw [exec_sta_out hout] at h
      cases h
  | bpl off => cases h; exact State.branch_clock ..
  | bne off => cases h; exact State.branch_clock ..
  | beq off => cases h; exact State.branch_clock ..
  | _ => cases h; rfl

/-- A completed handler leaves the halted bit, the diagnostic text and the draw counter alone. -/
theorem exec_hidden {i : Instr} {s t : State} (h : exec i s = .next t) : SameHidden s t := by
  cases i with
  | ldaAbs ea =>
    rcases Nat.lt_or_ge (dataAddress ea) s.mem.size with hin | hout
    · rw [exec_ldaAbs_in hin] at h
      cases h
      exact ⟨rfl, rfl, rfl⟩
    · rw [exec_ldaAbs_out hout] at h
      cases h
  | sta ea =>
    rcases Nat.lt_or_ge (dataAddress ea) s.mem.size with hin | hout
    · rw [exec_sta_in hin] at h
      cases h
      exact ⟨rfl, rfl, rfl⟩
    · rw [exec_sta_out hout] at h
      cases h
  | bpl off => cases h; exact ⟨State.branch_halted .., State.branch_lastInfo .., State.branch_infoDraws ..⟩
  | bne off => cases h; exact ⟨State.branch_halted .., State.branch_lastInfo .., State.branch_infoDraws ..⟩
  | beq off => cases h; exact ⟨State.branch_halted .., State.branch_lastInfo .., State.branch_infoDraws ..⟩
  | _ => cases h; exact ⟨rfl, rfl, rfl⟩

/-! ## The step -/

/-- A run of one more step begins with that step, whichever way it ends. -/
theorem run_succ_next {n : Nat} {s t : State} (h : step s = .next t) :
    Host.Core.run Sys2Proof.core (n + 1) s = Host.Core.run Sys2Proof.core n t := by
  have h : Sys2Proof.core.step s = .next t := h
  simp only [Host.Core.run, h]

theorem run_succ_fault {n : Nat} {s : State} {f : Fault} (h : step s = .fault f) :
    Host.Core.run Sys2Proof.core (n + 1) s = .fault f := by
  have h : Sys2Proof.core.step s = .fault f := h
  simp only [Host.Core.run, h]

theorem run_succ_refused {n : Nat} {s : State} {r : Refusal} (h : step s = .refused r) :
    Host.Core.run Sys2Proof.core (n + 1) s = .refused r := by
  have h : Sys2Proof.core.step s = .refused r := h
  simp only [Host.Core.run, h]

/-- A completed run of one more step begins with a step that completes. -/
theorem step_of_run_succ {n : Nat} {s u : State} (h : Host.Core.run Sys2Proof.core (n + 1) s = .next u) :
    ∃ t, step s = .next t ∧ Host.Core.run Sys2Proof.core n t = .next u := by
  cases hs : step s with
  | next t => exact ⟨t, rfl, (run_succ_next hs).symm.trans h⟩
  | fault f => cases (run_succ_fault hs).symm.trans h
  | refused r => cases (run_succ_refused hs).symm.trans h

theorem step_halted {s : State} (h : s.halted = true) : step s = .fault .halted := by
  simp [step, h]

theorem step_fetch_fault {s : State} {f : Fault} (h : s.halted = false) (hf : fetch s = .error f) :
    step s = .fault f := by
  simp [step, h, hf]

theorem step_fetched {s : State} {bytes rest : List Byte} {i : Instr} (h : s.halted = false)
    (hf : fetch s = .ok bytes) (hd : decode bytes = .ok (i, rest)) : step s = retire i s (exec i s) := by
  simp [step, h, hf, hd]

/-- Every way a step completes. -/
theorem step_next {s t : State} (h : step s = .next t) :
    s.halted = false ∧ ∃ bytes i rest u, fetch s = .ok bytes ∧ decode bytes = .ok (i, rest) ∧
      exec i s = .next u ∧ t = u.noteInstruction i s := by
  unfold step at h
  split at h
  · cases h
  case isFalse hh =>
    refine ⟨by simpa using hh, ?_⟩
    split at h
    · cases h
    case h_2 bytes hb =>
      split at h
      · cases h
      case h_2 i rest hd =>
        unfold retire at h
        split at h
        case h_1 u hu =>
          cases h
          exact ⟨bytes, i, rest, u, hb, hd, hu, rfl⟩
        · cases h
        · cases h

/-- Every way a step faults. -/
theorem step_fault {s : State} {f : Fault} (h : step s = .fault f) :
    (s.halted = true ∧ f = .halted) ∨
    (s.halted = false ∧ fetch s = .error f) ∨
    ∃ bytes i rest, s.halted = false ∧ fetch s = .ok bytes ∧ decode bytes = .ok (i, rest) ∧ exec i s = .fault f := by
  unfold step at h
  split at h
  case isTrue hh =>
    cases h
    exact .inl ⟨hh, rfl⟩
  case isFalse hh =>
    have hh : s.halted = false := by simpa using hh
    split at h
    case h_1 g hg =>
      cases h
      exact .inr (.inl ⟨hh, hg⟩)
    case h_2 bytes hb =>
      split at h
      · cases h
      case h_2 i rest hd =>
        unfold retire at h
        split at h
        · cases h
        case h_2 g hg =>
          cases h
          exact .inr (.inr ⟨bytes, i, rest, hh, hb, hd, hg⟩)
        · cases h

/-- What a completed step does to Memory: nothing, or the one byte of a store. -/
theorem step_mem {s t : State} (h : step s = .next t) :
    t.mem = s.mem ∨ ∃ a, a < s.mem.size ∧ t.mem = s.mem.put a s.regA := by
  obtain ⟨-, _, i, _, u, -, -, hu, rfl⟩ := step_next h
  rcases exec_mem hu with hm | ⟨ea, -, hin, hm⟩
  · exact .inl (by simpa using hm)
  · exact .inr ⟨_, hin, by simpa using hm⟩

/-- A completed step keeps the canonical form of Memory. -/
theorem step_mem_wf {s t : State} (h : step s = .next t) (hw : s.mem.wf) : t.mem.wf := by
  rcases step_mem h with hm | ⟨a, ha, hm⟩
  · rw [hm]; exact hw
  · rw [hm]; exact Memory.put_wf hw ha s.regA

/-- A completed step keeps the length of Memory. -/
theorem step_mem_size {s t : State} (h : step s = .next t) : t.mem.size = s.mem.size := by
  rcases step_mem h with hm | ⟨a, -, hm⟩ <;> simp [hm]

end Sys2Proof.Machine
end

