-- ==== Sys2Proof/Laws/Engine.lean ====
section
/-! SUPPORT. What a step command does, by the outcome of its step. -/

namespace Sys2Proof.Machine

theorem stepCommand_next {s t : State} (h : step s = .next t) :
    stepCommand s = ⟨t, [.state (stateSnapshot t), .window (memoryWindow t)], none⟩ := by
  simp [stepCommand, h]

theorem stepCommand_fault {s : State} {addr : Nat} (h : step s = .fault (.addressOutOfRange addr)) :
    stepCommand s = ⟨s.halt, [], some addr⟩ := by
  simp [stepCommand, h]

theorem stepCommand_halted {s : State} (h : s.halted = true) : stepCommand s = ⟨s, [], none⟩ := by
  simp [stepCommand, step_halted h]

end Sys2Proof.Machine
end

