-- ==== Sys2Proof/Laws/Flags.lean ====
section
/-! SUPPORT. Every flag computation bit by bit. -/

namespace Sys2Proof.Machine

theorem mask_bit (m : Byte) (k : Nat) (f : Byte) : (f &&& m).getLsbD k = (f.getLsbD k && m.getLsbD k) := by simp

theorem bit_of_le {k : Nat} (h : 8 ≤ k) (f : Byte) : f.getLsbD k = false := BitVec.getLsbD_of_ge f k h

/-- A fact about bit `k` of a byte holds of every `k` if it holds of the eight bits there are. -/
theorem forall_bit_iff {p : Nat → Prop} (hge : ∀ k, 8 ≤ k → p k) (hlt : ∀ k : Fin 8, p k) (k : Nat) : p k := by
  by_cases h : 8 ≤ k
  · exact hge k h
  · exact hlt ⟨k, by omega⟩

theorem applyFlags_getLsbD (f v : Byte) (k : Nat) :
    (applyFlags f v).getLsbD k =
      if k = 1 then decide (v = 0) else if k = 7 then f.getLsbD 7 || v.getLsbD 7 else f.getLsbD k := by
  refine forall_bit_iff (p := fun k => (applyFlags f v).getLsbD k =
    if k = 1 then decide (v = 0) else if k = 7 then f.getLsbD 7 || v.getLsbD 7 else f.getLsbD k) ?_ ?_ k
  · intro k h
    rw [if_neg (by omega), if_neg (by omega), bit_of_le h, bit_of_le h]
  · intro k
    unfold applyFlags applyNegative applyZero
    by_cases hz : v = 0#8 <;> by_cases hn : v.getLsbD 7 = true <;> fin_cases k <;> simp_all

theorem assignCarry_getLsbD (f : Byte) (c : Bool) (k : Nat) :
    (assignCarry f c).getLsbD k = if k = 0 then c else f.getLsbD k := by
  refine forall_bit_iff (p := fun k => (assignCarry f c).getLsbD k = if k = 0 then c else f.getLsbD k) ?_ ?_ k
  · intro k h
    rw [if_neg (by omega), bit_of_le h, bit_of_le h]
  · intro k
    unfold assignCarry
    cases c <;> fin_cases k <;> simp

theorem clearCarry_getLsbD (f : Byte) (k : Nat) :
    (clearCarry f).getLsbD k = if k = 0 then false else f.getLsbD k := by
  simpa [clearCarry, assignCarry] using assignCarry_getLsbD f false k

theorem clearDecimal_getLsbD (f : Byte) (k : Nat) :
    (clearDecimal f).getLsbD k = if k < 2 then f.getLsbD k else false := by
  refine forall_bit_iff (p := fun k => (clearDecimal f).getLsbD k = if k < 2 then f.getLsbD k else false) ?_ ?_ k
  · intro k h
    rw [if_neg (by omega), bit_of_le h]
  · intro k
    unfold clearDecimal
    fin_cases k <;> simp

theorem compareFlags_getLsbD (f a v : Byte) (k : Nat) :
    (compareFlags f a v).getLsbD k =
      if k = 1 then decide (a - v = 0) else if k = 7 then f.getLsbD 7 || (a - v).getLsbD 7
      else if k = 0 then decide (v.toNat < a.toNat) else f.getLsbD k := by
  unfold compareFlags
  rw [applyFlags_getLsbD, assignCarry_getLsbD, assignCarry_getLsbD]
  by_cases h0 : k = 0 <;> simp [h0]

/-! ## The named bits after each computation -/

@[simp] theorem flagC_applyFlags (f v : Byte) : flagC (applyFlags f v) = flagC f := applyFlags_getLsbD f v 0
@[simp] theorem flagZ_applyFlags (f v : Byte) : flagZ (applyFlags f v) = decide (v = 0) := applyFlags_getLsbD f v 1
@[simp] theorem flagN_applyFlags (f v : Byte) : flagN (applyFlags f v) = (flagN f || flagN v) :=
  applyFlags_getLsbD f v 7

@[simp] theorem flagC_compareFlags (f a v : Byte) : flagC (compareFlags f a v) = decide (v.toNat < a.toNat) :=
  compareFlags_getLsbD f a v 0
@[simp] theorem flagZ_compareFlags (f a v : Byte) : flagZ (compareFlags f a v) = decide (a - v = 0) :=
  compareFlags_getLsbD f a v 1
@[simp] theorem flagN_compareFlags (f a v : Byte) : flagN (compareFlags f a v) = (flagN f || flagN (a - v)) :=
  compareFlags_getLsbD f a v 7

@[simp] theorem flagC_clearCarry (f : Byte) : flagC (clearCarry f) = false := clearCarry_getLsbD f 0
@[simp] theorem flagZ_clearCarry (f : Byte) : flagZ (clearCarry f) = flagZ f := clearCarry_getLsbD f 1
@[simp] theorem flagN_clearCarry (f : Byte) : flagN (clearCarry f) = flagN f := clearCarry_getLsbD f 7

@[simp] theorem flagC_clearDecimal (f : Byte) : flagC (clearDecimal f) = flagC f := clearDecimal_getLsbD f 0
@[simp] theorem flagZ_clearDecimal (f : Byte) : flagZ (clearDecimal f) = flagZ f := clearDecimal_getLsbD f 1
@[simp] theorem flagN_clearDecimal (f : Byte) : flagN (clearDecimal f) = false := clearDecimal_getLsbD f 7

/-- Bit 7 of a byte is its top half (the `N` bit's reading of a value, 40 R78). -/
theorem getLsbD_seven_iff (v : Byte) : v.getLsbD 7 = true ↔ 128 ≤ v.toNat := by
  revert v; decide

theorem flagN_iff (v : Byte) : flagN v = true ↔ 128 ≤ v.toNat := getLsbD_seven_iff v

/-- The shared rule run twice on one value is the rule run once (40 R78). -/
theorem applyFlags_idem (f v : Byte) : applyFlags (applyFlags f v) v = applyFlags f v := by
  apply BitVec.eq_of_getLsbD_eq
  intro k _
  simp only [applyFlags_getLsbD]
  by_cases h1 : k = 1 <;> by_cases h7 : k = 7 <;> simp [h1, h7]

end Sys2Proof.Machine
end

