-- ==== Sys2Proof/Tests/Slice0.lean ====
section
/-! SUPPORT. Tests. Expected values are the spec's own: the encodings of 30 R51 to R58 and the vectors of
95_test_vectors.md, whose ids the comments give. The theorems named `witness_…` show, for each statement with
hypotheses, a concrete state and operands that meet them. -/

namespace Sys2Proof.Tests

open Sys2Proof.Machine

/-! ## Well-formedness: the one check, with a term it refuses and one it accepts -/

theorem test_wf_refuses_nop_over_listed_opcode : (Instr.nop 0xA9).wf = false := by decide
theorem test_wf_refuses_nop_over_every_listed_opcode : listedOpcodes.all (fun op => !(Instr.nop op).wf) = true := by
  decide
theorem test_wf_accepts_unlisted_opcode : (Instr.nop 0xEA).wf = true := by decide
/-- 30 R58: 19 listed opcodes and 237 others. -/
theorem test_unlisted_count :
    ((List.range 256).filter (fun n => !isListed (BitVec.ofNat 8 n))).length = 237 := by
  decide +kernel

/-! ## Decoding: a word written out bit by bit for every constructor (30 R51 to R58) -/

theorem test_decode_bpl : decode [0b00010000, 0b00000010] = .ok (.bpl 0x02, []) := by decide
theorem test_decode_clc : decode [0b00011000] = .ok (.clc, []) := by decide
theorem test_decode_eor : decode [0b01001001, 0b11111111] = .ok (.eor 0xFF, []) := by decide
theorem test_decode_jmp : decode [0b01001100, 0b00001100, 0b00000100] = .ok (.jmp 0x040C, []) := by decide
theorem test_decode_adc : decode [0b01101001, 0b00000101] = .ok (.adc 0x05, []) := by decide
theorem test_decode_dey : decode [0b10001000] = .ok (.dey, []) := by decide
theorem test_decode_sta : decode [0b10001101, 0b00000000, 0b00000101] = .ok (.sta 0x0500, []) := by decide
theorem test_decode_tya : decode [0b10011000] = .ok (.tya, []) := by decide
theorem test_decode_txs : decode [0b10011010] = .ok (.txs, []) := by decide
theorem test_decode_ldy : decode [0b10100000, 0b11111111] = .ok (.ldy 0xFF, []) := by decide
theorem test_decode_ldx : decode [0b10100010, 0b00000011] = .ok (.ldx 0x03, []) := by decide
theorem test_decode_tax : decode [0b10101010] = .ok (.tax, []) := by decide
theorem test_decode_ldaImm : decode [0b10101001, 0b00101010] = .ok (.ldaImm 0x2A, []) := by decide
theorem test_decode_ldaAbs : decode [0b10101101, 0b00100000, 0b00000100] = .ok (.ldaAbs 0x0420, []) := by decide
theorem test_decode_cmp : decode [0b11001001, 0b00000101] = .ok (.cmp 0x05, []) := by decide
theorem test_decode_dex : decode [0b11001010] = .ok (.dex, []) := by decide
theorem test_decode_bne : decode [0b11010000, 0b11111011] = .ok (.bne 0xFB, []) := by decide
theorem test_decode_cld : decode [0b11011000] = .ok (.cld, []) := by decide
theorem test_decode_beq : decode [0b11110000, 0b00000101] = .ok (.beq 0x05, []) := by decide
/-- V-NOP-4: the byte after an unlisted opcode is not its operand. -/
theorem test_decode_nop : decode [0b10100101, 0b00010000] = .ok (.nop 0xA5, [0x10]) := by decide
theorem test_decode_rejects_no_bytes : decode [] = .error .noOpcode := by decide
theorem test_decode_rejects_truncated : decode [0x4C, 0x00] = .error (.operandMissing 0x4C) := by decide
theorem test_decodeTableWord : decodeTableWord 24 0x12344C = some (.jmp 0x1234) := by decide
theorem test_encode_jmp : encode (.jmp 0x1234) = [0x4C, 0x34, 0x12] := by decide

/-! ## Steps: the vectors of 95 section 2 -/

/-- A running engine with `MEM_SIZE = size`, these bytes at `pc` and zeros elsewhere. -/
def machine (size : Nat) (pc : Addr) (bytes : List Byte) : State :=
  { State.reset with pc := pc, mem := Memory.placeBytes ⟨size, []⟩ pc.toNat bytes }

/-- A look at the state a step gives. -/
def look {α : Type} (f : State → α) : Host.Outcome State Fault Refusal → Option α
  | .next t => some (f t)
  | .fault _ => none
  | .refused _ => none

/-- The address a step faults with. -/
def faultAddress : Host.Outcome State Fault Refusal → Option Nat
  | .fault (.addressOutOfRange a) => some a
  | _ => none

/-- V-LDA-4: a stale negative bit survives a positive load. -/
theorem test_ldaImm_stale_negative :
    look (fun t => (t.pc, t.regA, t.flags)) (step { machine 0x1000 0x400 [0xA9, 0x01] with flags := 0x83 }) =
      some (0x402, 0x01, 0x81) := by decide
/-- V-LDA-5. -/
theorem test_ldaImm_operand_out_of_range : faultAddress (step (machine 0x401 0x400 [0xA9])) = some 0x401 := by decide
/-- V-LDAa-3: it reads its own opcode. -/
theorem test_ldaAbs_own_opcode :
    look (fun t => (t.pc, t.regA, t.flags)) (step (machine 0x1000 0x400 [0xAD, 0x00, 0x04])) =
      some (0x403, 0xAD, 0x80) := by decide
/-- V-LDAa-5. -/
theorem test_ldaAbs_out_of_range : faultAddress (step (machine 0x1000 0x400 [0xAD, 0x00, 0x10])) = some 0x1000 := by
  decide
/-- V-LDX-2. -/
theorem test_ldx_zero :
    look (fun t => (t.pc, t.regX, t.flags)) (step { machine 0x1000 0x400 [0xA2, 0x00] with regX := 0x09 }) =
      some (0x402, 0x00, 0x02) := by decide
/-- V-LDY-1. -/
theorem test_ldy_negative :
    look (fun t => (t.pc, t.regY, t.flags)) (step { machine 0x1000 0x400 [0xA0, 0xFF] with flags := 0x01 }) =
      some (0x402, 0xFF, 0x81) := by decide
/-- V-STA-3: it overwrites its own opcode. -/
theorem test_sta_own_opcode :
    look (fun t => (t.pc, t.mem.byteAt 0x400, t.mem.byteAt 0x402))
      (step { machine 0x1000 0x400 [0x8D, 0x00, 0x04] with regA := 0xEA }) = some (0x403, 0xEA, 0x04) := by decide
/-- V-STA-6: the operand fetch faults before the data address is tried. -/
theorem test_sta_fault_order : faultAddress (step (machine 0x402 0x400 [0x8D, 0xFF])) = some 0x402 := by decide
/-- V-TAX-1. -/
theorem test_tax :
    look (fun t => (t.pc, t.regA, t.regX, t.flags))
      (step { machine 0x1000 0x400 [0xAA] with regA := 0xFA, flags := 0x02 }) = some (0x401, 0xFA, 0xFA, 0x80) := by
  decide
/-- V-TYA-2. -/
theorem test_tya :
    look (fun t => (t.regA, t.regY, t.flags)) (step { machine 0x1000 0x400 [0x98] with regA := 0x12 }) =
      some (0x00, 0x00, 0x02) := by decide
/-- V-TXS-1: the flags are updated. -/
theorem test_txs_updates_flags :
    look (fun t => (t.regX, t.regS, t.flags)) (step { machine 0x1000 0x400 [0x9A] with regS := 0x55 }) =
      some (0x00, 0x00, 0x02) := by decide
/-- V-ADC-2: it wraps without a carry. -/
theorem test_adc_wraps :
    look (fun t => (t.regA, t.flags)) (step { machine 0x1000 0x400 [0x69, 0x01] with regA := 0xFF }) =
      some (0x00, 0x02) := by decide
/-- V-ADC-4: the carry is not added. -/
theorem test_adc_no_carry_in :
    look (fun t => (t.regA, t.flags)) (step { machine 0x1000 0x400 [0x69, 0x01] with regA := 0x01, flags := 0x01 }) =
      some (0x02, 0x01) := by decide
/-- V-EOR-2: a result of zero does not set the zero bit. -/
theorem test_eor_leaves_flags :
    look (fun t => (t.regA, t.flags)) (step { machine 0x1000 0x400 [0x49, 0x5A] with regA := 0x5A }) =
      some (0x00, 0x00) := by decide
/-- V-CMP-3: equal operands clear the carry. -/
theorem test_cmp_equal :
    look (fun t => (t.regA, t.flags)) (step { machine 0x1000 0x400 [0xC9, 0x05] with regA := 0x05, flags := 0x01 }) =
      some (0x05, 0x02) := by decide
/-- V-CMP-7. -/
theorem test_cmp_greater_negative :
    look (fun t => t.flags) (step { machine 0x1000 0x400 [0xC9, 0x00] with regA := 0xFF }) = some 0x81 := by decide
/-- V-DEX-3. -/
theorem test_dex_wraps :
    look (fun t => (t.regX, t.flags)) (step { machine 0x1000 0x400 [0xCA] with flags := 0x02 }) =
      some (0xFF, 0x80) := by decide
/-- V-DEY-2. -/
theorem test_dey_stale_negative :
    look (fun t => (t.regY, t.flags)) (step { machine 0x1000 0x400 [0x88] with regY := 0x01, flags := 0x80 }) =
      some (0x00, 0x82) := by decide
/-- V-CLC-3. -/
theorem test_clc : look (fun t => t.flags) (step { machine 0x1000 0x400 [0x18] with flags := 0xFF }) = some 0xFE := by
  decide
/-- V-CLD-2. -/
theorem test_cld : look (fun t => t.flags) (step { machine 0x1000 0x400 [0xD8] with flags := 0xFF }) = some 0x03 := by
  decide
/-- V-BPL-4: a target below 0 wraps. -/
theorem test_bpl_wraps_below_zero : look (fun t => t.pc) (step (machine 0x1000 0x0010 [0x10, 0x80])) = some 0xFF92 := by
  decide
/-- V-BPL-2. -/
theorem test_bpl_not_taken :
    look (fun t => t.pc) (step { machine 0x1000 0x409 [0x10, 0x02] with flags := 0x80 }) = some 0x40B := by decide
/-- V-BNE-1. -/
theorem test_bne_backward : look (fun t => t.pc) (step (machine 0x1000 0x407 [0xD0, 0xFB])) = some 0x404 := by decide
/-- V-BEQ-5: the offset byte is read even when the branch is not taken. -/
theorem test_beq_not_taken_reads_offset : faultAddress (step (machine 0x401 0x400 [0xF0])) = some 0x401 := by decide
/-- V-BEQ-6: a target above 0xFFFF wraps. -/
theorem test_beq_wraps_above_top :
    look (fun t => t.pc) (step { machine 0x10000 0xFFF0 [0xF0, 0x7F] with flags := 0x02 }) = some 0x0071 := by decide
/-- V-JMP-3: the jump completes, and the next step faults. -/
theorem test_jmp_out_of_range :
    (look step (step (machine 0x1000 0x400 [0x4C, 0x00, 0x20]))).bind faultAddress = some 0x2000 := by decide
/-- V-NOP-5: the pc wraps at the top. -/
theorem test_nop_wraps : look (fun t => (t.pc, t.flags)) (step (machine 0x10000 0xFFFF [0x02])) = some (0x0000, 0x00) := by
  decide
/-- V-NOP-1, the clock. -/
theorem test_nop_clock :
    look (fun t => t.clock) (step (machine 0x1000 0x400 [0xFF])) = some (0 + BitVec.ofNat 64 Config.defaultCost) := by
  rfl
/-- V-TOP-1: an operand address does not wrap. -/
theorem test_operand_address_does_not_wrap : faultAddress (step (machine 0x10000 0xFFFF [0xA9])) = some 0x10000 := by
  decide
/-- V-NOP-7: the opcode fetch faults. -/
theorem test_fetch_out_of_range : faultAddress (step (machine 0x1000 0x1000 [])) = some 0x1000 := by decide
/-- V-AF-5, V-AF-6, V-AF-7. -/
theorem test_applyFlags : (applyFlags 0x80 0x00, applyFlags 0x7D 0x00, applyFlags 0xFF 0x01) = (0x82, 0x7F, 0xFD) := by
  decide
/-- V-WIN-3, V-WIN-6, V-WIN-9, V-WIN-10, V-WIN-12: first address and length. -/
theorem test_windows :
    [(0x1000, 0x0100), (0x1000, 0x0F00), (0x1000, 0x10FE), (0x1000, 0x10FF), (0x10000, 0xFFFF)].map
        (fun c : Nat × Addr => (windowLow (machine c.1 c.2 []), windowEnd (machine c.1 c.2 []) - windowLow (machine c.1 c.2 []))) =
      [(0x0001, 512), (0x0E01, 511), (0x0FFF, 1), (0x1000, 0), (0xFF00, 256)] := by decide
/-- The host's entry point: an instruction word placed where the next step fetches runs after reset. -/
theorem test_withFetchWord : look (fun t => (t.pc, t.regA)) (step (State.reset.withFetchWord 16 0x2AA9)) = some (0x402, 0x2A) := by
  decide

/-! ## Witnesses -/

/-- Does a step complete? -/
def isNext (o : Host.Outcome State Fault Refusal) : Bool := (look (fun _ => ()) o).isSome

theorem exists_of_isNext {o : Host.Outcome State Fault Refusal} (h : isNext o = true) : ∃ t, o = .next t := by
  cases o with
  | next t => exact ⟨t, rfl⟩
  | fault f => simp [isNext, look] at h
  | refused r => simp [isNext, look] at h

/-- Bytes placed in range stand in Memory, so `BytesAt` holds of a state made by `machine`. -/
theorem bytesAt_machine (size : Nat) (pc : Addr) (bytes : List Byte) (h : pc.toNat + bytes.length ≤ size) :
    BytesAt (machine size pc bytes) pc.toNat bytes := by
  intro k b hk
  have hlt := (List.getElem?_eq_some_iff.mp hk).1
  have hin : pc.toNat + k < (⟨size, []⟩ : Memory).size := by show pc.toNat + k < size; omega
  exact memRead_ok_iff.mpr ⟨by simpa [machine] using hin, Memory.byteAt_placeBytes _ _ _ _ _ hk hin⟩

theorem witness_DecodeOfEncodeIsTheInstruction : (Instr.sta 0xFFFF).wf = true ∧ (Instr.nop 0xFF).wf = true := by decide
theorem witness_EncodeOfDecodeIsTheBytes : decode [0x8D, 0x01, 0x02, 0x03] = .ok (.sta 0x0201, [0x03]) := by decide
theorem witness_MemoryPrimitivesCheckAndStore :
    (machine 0x401 0x400 []).mem.size ≤ 0x401 ∧ 0x400 < (machine 0x401 0x400 []).mem.size := by decide
theorem witness_CanonicalMemoriesThatReadAlikeAreEqual :
    Memory.wf ⟨0x401, [(3, 0x01), (0x400, 0xFF)]⟩ ∧ (Memory.put ⟨0x401, [(0x400, 0xFF)]⟩ 3 0x01).wf ∧
    Memory.put ⟨0x401, [(0x400, 0xFF)]⟩ 3 0x01 = ⟨0x401, [(3, 0x01), (0x400, 0xFF)]⟩ := by decide

/-- `STA $0403` at 0x400 with `A = 0xCA`: it stores the next opcode. -/
def storing : State := { machine 0x1000 0x400 [0x8D, 0x03, 0x04] with regA := 0xCA }

theorem storing_bytes : BytesAt storing storing.pc.toNat (encode (.sta 0x0403)) :=
  bytesAt_machine 0x1000 0x400 [0x8D, 0x03, 0x04] (by decide)

theorem witness_OnlyStoreChangesMemory :
    (∃ t, step storing = .next t) ∧ look (fun t => memRead t 0x403 ≠ memRead storing 0x403) (step storing) = some True :=
  ⟨exists_of_isNext (by decide), by
    show some _ = some _
    exact congrArg some (eq_true (by decide))⟩

theorem witness_StoredByteIsFetchedByTheNextStep :
    storing.halted = false ∧ BytesAt storing storing.pc.toNat (encode (.sta 0x0403)) ∧
    dataAddress 0x0403 < storing.mem.size ∧ look fetch (step storing) = some (.ok [0xCA]) :=
  ⟨rfl, storing_bytes, by decide, by decide⟩

/-- `LDA $1000` with `MEM_SIZE = 0x1000`: its data address is out of range. -/
def loadingOutside : State := machine 0x1000 0x400 [0xAD, 0x00, 0x10]

theorem loadingOutside_bytes : BytesAt loadingOutside loadingOutside.pc.toNat (encode (.ldaAbs 0x1000)) :=
  bytesAt_machine 0x1000 0x400 [0xAD, 0x00, 0x10] (by decide)

theorem step_loadingOutside : step loadingOutside = .fault (.addressOutOfRange 0x1000) := rfl

/-- Its clauses for a next state and for a fault. -/
theorem witness_StepRunsTheDecodedInstruction :
    (storing.halted = false ∧ (Instr.sta 0x0403).wf = true ∧
      BytesAt storing storing.pc.toNat (encode (.sta 0x0403)) ∧ ∃ t, exec (.sta 0x0403) storing = .next t) ∧
    loadingOutside.halted = false ∧ (Instr.ldaAbs 0x1000).wf = true ∧
      BytesAt loadingOutside loadingOutside.pc.toNat (encode (.ldaAbs 0x1000)) ∧
      exec (.ldaAbs 0x1000) loadingOutside = .fault (.addressOutOfRange 0x1000) :=
  ⟨⟨rfl, rfl, storing_bytes, _, rfl⟩, rfl, rfl, loadingOutside_bytes, rfl⟩

theorem witness_StepCompletesWhenAllAddressesAreInside :
    storing.halted = false ∧ (Instr.sta 0x0403).wf = true ∧ BytesAt storing storing.pc.toNat (encode (.sta 0x0403)) ∧
    ∀ ea, (Instr.sta 0x0403 = .ldaAbs ea ∨ Instr.sta 0x0403 = .sta ea) → dataAddress ea < storing.mem.size :=
  ⟨rfl, rfl, storing_bytes, fun ea h => by
    rcases h with h | h
    · cases h
    · cases h; decide⟩

/-- One fault of each of the three kinds: opcode byte, operand byte, data address. -/
theorem witness_StepFaultsOnlyForAnAccessOutOfRange :
    step (machine 0x1000 0x1000 []) = .fault (.addressOutOfRange 0x1000) ∧
    step (machine 0x401 0x400 [0xA9]) = .fault (.addressOutOfRange 0x401) ∧
    step loadingOutside = .fault (.addressOutOfRange 0x1000) :=
  ⟨rfl, rfl, rfl⟩

theorem witness_StepKeepsLegalStates : Inv storing ∧ ∃ t, step storing = .next t :=
  ⟨⟨by decide, by decide, by decide, fun k _ _ => by simp [storing, machine, State.reset]⟩, exists_of_isNext (by decide)⟩

theorem witness_LoadedStatesAreLegal :
    legalImage (List.replicate Config.minMemSize 0x00) ∧ legalImage (List.replicate Config.maxMemSize 0x00) := by
  simp only [legalImage, List.length_replicate]
  decide

theorem witness_LoadPlacesTheImage : ([0x10, 0x20] : List Byte)[1]? = some 0x20 := by decide
theorem witness_ShortImageFaultsAtItsFirstFetch : (List.replicate 0x400 (0x00 : Byte)).length ≤ 0x400 :=
  le_of_eq List.length_replicate
theorem witness_FaultIsPreciseAndFinal : step loadingOutside = .fault (.addressOutOfRange 0x1000) := rfl
theorem witness_HaltedEngineDoesNothing : loadingOutside.halt.halted = true := rfl
theorem witness_StateSnapshotCopiesTheNewState : ∃ t, step storing = .next t := exists_of_isNext (by decide)
theorem witness_MemoryWindowIsClampedToMemory : (memoryWindow (machine 0x401 0x402 [])).bytes[0]? = some 0x00 :=
  rfl

theorem witness_SnapshotPairsComeInStepOrder : SafeRun 1 storing ∧ 0 < 1 := by
  obtain ⟨t, ht⟩ := exists_of_isNext (show isNext (step storing) = true by decide)
  exact ⟨⟨t, (run_succ_next ht).trans rfl⟩, by decide⟩

/-- An instruction that neither writes nor reads the register, and one that only writes it. -/
theorem witness_AccumulatorWritersAndReaders :
    (Instr.dex).wf = true ∧ opcodeOf .dex ∉ ([0xA9, 0xAD, 0x98, 0x69, 0x49] : List Byte) ∧
    opcodeOf .dex ∉ ([0x8D, 0xAA, 0x69, 0x49, 0xC9] : List Byte) ∧ (∃ t, exec .dex storing = .next t) ∧
    (Instr.tya).wf = true ∧ opcodeOf .tya ∉ ([0x8D, 0xAA, 0x69, 0x49, 0xC9] : List Byte) :=
  ⟨rfl, by decide, by decide, ⟨_, rfl⟩, rfl, by decide⟩

theorem witness_IndexRegisterWritersAndReaders :
    (Instr.nop 0xEA).wf = true ∧ opcodeOf (.nop 0xEA) ∉ ([0xA2, 0xAA, 0xCA] : List Byte) ∧
    opcodeOf (.nop 0xEA) ∉ ([0x9A, 0xCA] : List Byte) ∧ opcodeOf (.nop 0xEA) ∉ ([0xA0, 0x88] : List Byte) ∧
    opcodeOf (.nop 0xEA) ∉ ([0x98, 0x88] : List Byte) ∧ ∃ t, exec (.nop 0xEA) storing = .next t :=
  ⟨by decide, by decide, by decide, by decide, by decide, _, rfl⟩

theorem witness_StackPointerInfluencesNothing :
    (Instr.tax).wf = true ∧ opcodeOf .tax ≠ 0x9A ∧ ∃ t, exec .tax storing = .next t :=
  ⟨rfl, by decide, _, rfl⟩

/-- An instruction that names a value and one that names none. -/
theorem witness_ZeroFlagSaysValueWasZero :
    (∃ t, exec .dex storing = .next t) ∧ flagValue .dex storing = some 0xFF ∧
    (∃ t, exec .clc storing = .next t) ∧ flagValue .clc storing = none :=
  ⟨⟨_, rfl⟩, rfl, ⟨_, rfl⟩, rfl⟩

theorem witness_NegativeFlagIsSticky :
    (∃ t, exec .cld storing = .next t) ∧ Instr.dex ≠ .cld ∧ ∃ t, exec .dex storing = .next t :=
  ⟨⟨_, rfl⟩, by decide, _, rfl⟩

theorem witness_CarryIsTouchedOnlyByCompareAndClear :
    (∃ t, exec (.cmp 0x05) storing = .next t) ∧ (∃ t, exec .clc storing = .next t) ∧
    (∀ v, Instr.dex ≠ .cmp v) ∧ Instr.dex ≠ .clc ∧ ∃ t, exec .dex storing = .next t :=
  ⟨⟨_, rfl⟩, ⟨_, rfl⟩, nofun, nofun, _, rfl⟩

theorem witness_StepAddsTheOpcodesCost :
    (∃ t, step storing = .next t) ∧ (∃ t, step (machine 0x1000 0x400 [0xFF]) = .next t) ∧
    (0xFF : Byte) ∉ listedOpcodes :=
  ⟨exists_of_isNext (by decide), exists_of_isNext (by decide), by decide⟩

theorem witness_FinishedProgramStaysFinished :
    (machine 0x1000 0x40C [0x4C, 0x0C, 0x04]).halted = false ∧ AtSelfJump (machine 0x1000 0x40C [0x4C, 0x0C, 0x04]) :=
  ⟨rfl, bytesAt_machine 0x1000 0x40C [0x4C, 0x0C, 0x04] (by decide)⟩

/-- `FetchFaults`, for every opcode: the opcode byte out of range, and the first operand byte out of range. -/
theorem witness_FetchFaults_opcode :
    (machine 0x1000 0x1000 []).halted = false ∧
    (machine 0x1000 0x1000 []).mem.size ≤ (machine 0x1000 0x1000 []).pc.toNat := by decide

theorem witness_FetchFaults_first_operand (op : Byte) :
    memRead (machine 0x401 0x400 [op]) 0x400 = .ok op ∧ (∀ j, j < 1 → 0x400 + j < 0x401) ∧ 0x401 ≤ 0x400 + 1 :=
  ⟨bytesAt_machine 0x401 0x400 [op] (le_of_eq rfl) 0 op rfl, fun j hj => by omega, by omega⟩

theorem witness_FetchFaults_second_operand (op : Byte) :
    memRead (machine 0x402 0x400 [op, 0x00]) 0x400 = .ok op ∧ (∀ j, j < 2 → 0x400 + j < 0x402) ∧ 0x402 ≤ 0x400 + 2 :=
  ⟨bytesAt_machine 0x402 0x400 [op, 0x00] (le_of_eq rfl) 0 op rfl, fun j hj => by omega, by omega⟩

/-- The two data clauses of `LDA abs`, at the last byte of Memory and just past it. -/
theorem witness_LdaAbsoluteEffect :
    (0x0FFF : Addr).toNat < (machine 0x1000 0x400 []).mem.size ∧ loadingOutside.halted = false ∧
    BytesAt loadingOutside loadingOutside.pc.toNat (encode (.ldaAbs 0x1000)) ∧
    loadingOutside.mem.size ≤ (0x1000 : Addr).toNat :=
  ⟨by decide, rfl, loadingOutside_bytes, by decide⟩

/-- The two data clauses of `STA abs`, at the last byte of Memory and just past it. -/
theorem witness_StaAbsoluteEffect :
    dataAddress 0x0FFF < (machine 0x1000 0x400 []).mem.size ∧
    (machine 0x1000 0x400 [0x8D, 0x00, 0x10]).halted = false ∧
    BytesAt (machine 0x1000 0x400 [0x8D, 0x00, 0x10]) 0x400 (encode (.sta 0x1000)) ∧
    (machine 0x1000 0x400 [0x8D, 0x00, 0x10]).mem.size ≤ dataAddress 0x1000 :=
  ⟨by decide, rfl, bytesAt_machine 0x1000 0x400 [0x8D, 0x00, 0x10] (by decide), by decide⟩

/-- Both cases of each branch: the flag clear and the flag set. -/
theorem witness_BplEffect_BneEffect_BeqEffect :
    (machine 0x1000 0x400 []).flags.getLsbD 7 = false ∧ (machine 0x1000 0x400 []).flags.getLsbD 1 = false ∧
    ({ machine 0x1000 0x400 [] with flags := 0x82 } : State).flags.getLsbD 7 = true ∧
    ({ machine 0x1000 0x400 [] with flags := 0x82 } : State).flags.getLsbD 1 = true := by decide

theorem witness_JmpAbsoluteEffect :
    (machine 0x1000 0x400 []).halted = false ∧ (machine 0x1000 0x400 []).mem.size ≤ (0x1000 : Addr).toNat := by decide

theorem witness_DefaultHandlerEffect :
    (0xFF : Byte) ∉ listedOpcodes ∧ (machine 0x401 0x400 [0xFF]).halted = false ∧
    memRead (machine 0x401 0x400 [0xFF]) (machine 0x401 0x400 [0xFF]).pc.toNat = .ok 0xFF := by decide

end Sys2Proof.Tests
end

/-! # Proofs about the state -/

/-! ## The decoder: which bytes a decoded instruction came from -/

namespace Sys2Proof

/-- A row without an operand encodes as its opcode byte alone (30 R51). -/
theorem encode_of_opcodeMap_impl {op : Byte} {i : Instr} (h : opcodeMap op = .impl i) : encode i = [op] := by
  unfold opcodeMap at h
  split at h <;> cases h <;> rfl

/-- A row with an immediate operand encodes as its opcode byte and the operand (30 R52). -/
theorem encode_of_opcodeMap_imm {op : Byte} {make : Byte → Instr} (h : opcodeMap op = .imm make) (v : Byte) :
    encode (make v) = [op, v] := by
  unfold opcodeMap at h
  split at h <;> cases h <;> rfl

/-- A row with a branch offset encodes as its opcode byte and the offset (30 R53). -/
theorem encode_of_opcodeMap_rel {op : Byte} {make : Byte → Instr} (h : opcodeMap op = .rel make) (off : Byte) :
    encode (make off) = [op, off] := by
  unfold opcodeMap at h
  split at h <;> cases h <;> rfl

/-- A row with an address encodes as its opcode byte and the address, low byte first (30 R54). -/
theorem encode_of_opcodeMap_abs {op : Byte} {make : Addr → Instr} (h : opcodeMap op = .abs make) (ea : Addr) :
    encode (make ea) = [op, lowByte ea, highByte ea] := by
  unfold opcodeMap at h
  split at h <;> cases h <;> rfl

/-- What decodes is the encoding of the decoded instruction, followed by the bytes left over. -/
theorem eq_encode_append_of_decode {bytes rest : List Byte} {i : Instr} (h : decode bytes = .ok (i, rest)) :
    bytes = encode i ++ rest := by
  unfold decode at h
  split at h
  case h_1 => cases h
  case h_2 op tail =>
    split at h
    case h_1 hm => cases h; simp [encode_of_opcodeMap_impl hm]
    case h_2 hm => cases h; simp [encode_of_opcodeMap_imm hm]
    case h_3 hm => cases h; simp [encode_of_opcodeMap_rel hm]
    case h_4 hm => cases h; simp [encode_of_opcodeMap_abs hm]
    all_goals cases h

theorem not_mem_listedOpcodes_of_nop_wf {op : Byte} (h : (Instr.nop op).wf = true) : op ∉ listedOpcodes := by
  rw [← isListed_iff]
  simpa [Instr.wf] using h

end Sys2Proof

/-! ## Memory changes by a store alone -/

namespace Sys2Proof.Machine

/-- The front of a byte list that stands in Memory stands there too. -/
theorem BytesAt.of_append {s : State} {a : Nat} {front back : List Byte} (h : BytesAt s a (front ++ back)) :
    BytesAt s a front := fun k b hk => h k b (by
  obtain ⟨hlt, -⟩ := List.getElem?_eq_some_iff.mp hk
  rwa [List.getElem?_append_left hlt])

/-- Every completed step is the `exec` of an instruction whose bytes stand at `pc`, with the text renewed. -/
theorem step_next_bytesAt {s t : State} (h : step s = .next t) :
    ∃ i u, BytesAt s s.pc.toNat (encode i) ∧ exec i s = .next u ∧ t = u.noteInstruction i s := by
  obtain ⟨-, bytes, i, rest, u, hf, hd, hu, ht⟩ := step_next h
  obtain ⟨-, -, -, -, -, hat⟩ := fetch_ok hf
  rw [eq_encode_append_of_decode hd] at hat
  exact ⟨i, u, hat.of_append, hu, ht⟩

/-- A read that a store changes is a read of the stored byte. -/
theorem memRead_put_of_ne {s t : State} {a b : Nat} {v : Byte} (ha : a < s.mem.size) (ht : t.mem = s.mem.put a v)
    (hne : memRead t b ≠ memRead s b) : b = a ∧ memRead t b = .ok v := by
  have hb : b = a := by
    by_contra hba
    exact hne (by simp [memRead, ht, Memory.byteAt_put_other s.mem hba])
  subst hb
  exact ⟨rfl, memRead_ok_iff.mpr (by simp [ht, ha])⟩

/-- Settles O7: the completed step ran an instruction whose bytes stand at `pc`, and only a store changes Memory. -/
theorem onlyStoreChangesMemory : Obligations.OnlyStoreChangesMemory := by
  intro s t h
  refine ⟨step_mem_size h, fun a hne => ?_⟩
  obtain ⟨i, u, hat, hu, rfl⟩ := step_next_bytesAt h
  rcases exec_mem hu with hm | ⟨ea, rfl, hin, hm⟩
  · exact absurd (memRead_congr (by simpa using hm) a) hne
  · obtain ⟨haddr, hread⟩ := memRead_put_of_ne hin (by simpa using hm) hne
    exact ⟨ea, hat, haddr, hread⟩

/-! ## Who writes and who reads a register

The four registers obey one frame rule and one noninterference rule, so both are proved once, for a register named
by `Reg`. -/

/-- The four general registers (10 R11 to R14). -/
inductive Reg where
  | a
  | x
  | y
  | s

/-- What a register holds. -/
def State.getReg (s : State) : Reg → Byte
  | .a => s.regA
  | .x => s.regX
  | .y => s.regY
  | .s => s.regS

/-- The state with another value in a register. -/
def State.setReg (s : State) (r : Reg) (v : Byte) : State :=
  match r with
  | .a => s.setA v
  | .x => s.setX v
  | .y => s.setY v
  | .s => s.setS v

@[simp] theorem State.setReg_mem (s : State) (r : Reg) (v : Byte) : (s.setReg r v).mem = s.mem := by
  cases r <;> rfl

@[simp] theorem State.setReg_flags (s : State) (r : Reg) (v : Byte) : (s.setReg r v).flags = s.flags := by
  cases r <;> rfl

/-- A branch neither reads nor writes a register. -/
theorem State.branch_setReg (s : State) (r : Reg) (v op : Byte) (taken : Bool) (off : Byte) :
    (s.setReg r v).branch op taken off = (s.branch op taken off).setReg r v := by
  cases r <;> cases taken <;> rfl

/-- The opcodes that write a register: the lists of 10 R11 to R14. -/
def writerOpcodes : Reg → List Byte
  | .a => [0xA9, 0xAD, 0x98, 0x69, 0x49]
  | .x => [0xA2, 0xAA, 0xCA]
  | .y => [0xA0, 0x88]
  | .s => [0x9A]

/-- The opcodes that read a register: the lists of 10 R11 to R14. -/
def readerOpcodes : Reg → List Byte
  | .a => [0x8D, 0xAA, 0x69, 0x49, 0xC9]
  | .x => [0x9A, 0xCA]
  | .y => [0x98, 0x88]
  | .s => []

/-- The opcodes that write a register without reading it. -/
def overwriterOpcodes : Reg → List Byte
  | .a => [0xA9, 0xAD, 0x98]
  | .x => [0xA2, 0xAA]
  | .y => [0xA0]
  | .s => [0x9A]

theorem overwriterOpcodes_subset_listedOpcodes (r : Reg) : overwriterOpcodes r ⊆ listedOpcodes := by
  cases r <;> decide

/-- A completed `LDA abs` has its data address inside Memory. -/
theorem exec_ldaAbs_next {s t : State} {ea : Addr} (h : exec (.ldaAbs ea) s = .next t) :
    dataAddress ea < s.mem.size ∧
      t = ((s.setA (s.mem.byteAt (dataAddress ea))).sharedRule (s.mem.byteAt (dataAddress ea))).finish 0xAD 3 := by
  rcases Nat.lt_or_ge (dataAddress ea) s.mem.size with hin | hout
  · rw [exec_ldaAbs_in hin] at h
    cases h
    exact ⟨hin, rfl⟩
  · rw [exec_ldaAbs_out hout] at h
    cases h

/-- A completed `STA abs` has its data address inside Memory. -/
theorem exec_sta_next {s t : State} {ea : Addr} (h : exec (.sta ea) s = .next t) :
    dataAddress ea < s.mem.size ∧
      t = ({ s with mem := s.mem.put (dataAddress ea) s.regA } : State).finish 0x8D 3 := by
  rcases Nat.lt_or_ge (dataAddress ea) s.mem.size with hin | hout
  · rw [exec_sta_in hin] at h
    cases h
    exact ⟨hin, rfl⟩
  · rw [exec_sta_out hout] at h
    cases h

/-- The frame rule of a register: an instruction that is not one of its writers leaves it. -/
theorem exec_getReg {i : Instr} {s t : State} {r : Reg} (hw : opcodeOf i ∉ writerOpcodes r)
    (h : exec i s = .next t) : t.getReg r = s.getReg r := by
  cases i with
  | ldaAbs ea =>
    obtain ⟨-, rfl⟩ := exec_ldaAbs_next h
    cases r with
    | a => simp [opcodeOf, writerOpcodes] at hw
    | _ => rfl
  | sta ea =>
    obtain ⟨-, rfl⟩ := exec_sta_next h
    rfl
  | ldaImm _ | tya | adc _ | eor _ =>
    cases h
    cases r with
    | a => simp [opcodeOf, writerOpcodes] at hw
    | _ => rfl
  | ldx _ | tax | dex =>
    cases h
    cases r with
    | x => simp [opcodeOf, writerOpcodes] at hw
    | _ => rfl
  | ldy _ | dey =>
    cases h
    cases r with
    | y => simp [opcodeOf, writerOpcodes] at hw
    | _ => rfl
  | txs =>
    cases h
    cases r with
    | s => simp [opcodeOf, writerOpcodes] at hw
    | _ => rfl
  | bpl _ | bne _ | beq _ =>
    cases h
    cases r with
    | a => exact State.branch_regA ..
    | x => exact State.branch_regX ..
    | y => exact State.branch_regY ..
    | s => exact State.branch_regS ..
  | cmp _ | clc | cld | jmp _ | nop _ =>
    cases h
    rfl

/-- The noninterference rule of a register: an instruction that is not one of its readers gives, from another value
of it, the same outcome but for that register, and the very same one where it overwrites the register. -/
theorem exec_setReg {i : Instr} {r : Reg} (s : State) (v : Byte) (hwf : i.wf = true)
    (hr : opcodeOf i ∉ readerOpcodes r) :
    exec i (s.setReg r v) =
      mapNext (fun t => if opcodeOf i ∈ overwriterOpcodes r then t else t.setReg r v) (exec i s) := by
  cases i with
  | ldaAbs ea =>
    rcases Nat.lt_or_ge (dataAddress ea) s.mem.size with hin | hout
    · rw [exec_ldaAbs_in hin, exec_ldaAbs_in (by simpa using hin)]
      cases r <;> rfl
    · rw [exec_ldaAbs_out hout, exec_ldaAbs_out (by simpa using hout)]
      rfl
  | sta ea =>
    rcases Nat.lt_or_ge (dataAddress ea) s.mem.size with hin | hout
    · rw [exec_sta_in hin, exec_sta_in (by simpa using hin)]
      cases r with
      | a => simp [opcodeOf, readerOpcodes] at hr
      | _ => rfl
    · rw [exec_sta_out hout, exec_sta_out (by simpa using hout)]
      rfl
  | tax | adc _ | eor _ | cmp _ =>
    cases r with
    | a => simp [opcodeOf, readerOpcodes] at hr
    | _ => rfl
  | txs | dex =>
    cases r with
    | x => simp [opcodeOf, readerOpcodes] at hr
    | _ => rfl
  | tya | dey =>
    cases r with
    | y => simp [opcodeOf, readerOpcodes] at hr
    | _ => rfl
  | bpl _ | bne _ | beq _ =>
    simp only [exec, execBpl, execBne, execBeq, State.setReg_flags, State.branch_setReg]
    cases r <;> rfl
  | nop op =>
    have hop : op ∉ overwriterOpcodes r := fun hmem =>
      not_mem_listedOpcodes_of_nop_wf hwf (overwriterOpcodes_subset_listedOpcodes r hmem)
    simp only [mapNext, exec, execNop, opcodeOf, hop, if_false]
    cases r <;> rfl
  | ldaImm _ | ldx _ | ldy _ | clc | cld | jmp _ => cases r <;> rfl

/-- Settles O24: the frame and noninterference rules at `A`. -/
theorem accumulatorWritersAndReaders : Obligations.AccumulatorWritersAndReaders := fun _ s hwf =>
  ⟨fun hw _ => exec_getReg (r := .a) hw, fun hr v => exec_setReg (r := .a) s v hwf hr⟩

/-- Settles O25: the frame and noninterference rules at `X` and at `Y`. -/
theorem indexRegisterWritersAndReaders : Obligations.IndexRegisterWritersAndReaders := fun _ s hwf =>
  ⟨fun hw _ => exec_getReg (r := .x) hw, fun hr v => exec_setReg (r := .x) s v hwf hr,
    fun hw _ => exec_getReg (r := .y) hw, fun hr v => exec_setReg (r := .y) s v hwf hr⟩

/-- Settles O26: the frame and noninterference rules at `S`, which has no reader. -/
theorem stackPointerInfluencesNothing : Obligations.StackPointerInfluencesNothing := by
  intro i s hwf
  constructor
  · intro hne t h
    exact exec_getReg (r := .s) (by simpa [writerOpcodes] using hne) h
  · intro v
    have h := exec_setReg (r := .s) s v hwf List.not_mem_nil
    simp only [overwriterOpcodes, List.mem_singleton] at h
    exact h

/-! ## The flags after an instruction -/

/-- The flags after what an instruction does to them on its own, before the shared flag rule: the carry of `CMP #`
(43 R102) and the bits that `CLC` and `CLD` clear (44 R107, R108). -/
def ownFlags : Instr → State → Byte
  | .cmp v, s => assignCarry s.flags (decide (v.toNat < s.regA.toNat))
  | .clc, s => clearCarry s.flags
  | .cld, s => clearDecimal s.flags
  | _, s => s.flags

/-- No instruction changes the zero bit on its own. -/
theorem flagZ_ownFlags (i : Instr) (s : State) : flagZ (ownFlags i s) = flagZ s.flags := by
  cases i with
  | cmp v => exact assignCarry_getLsbD _ _ 1
  | clc => exact flagZ_clearCarry _
  | cld => exact flagZ_clearDecimal _
  | _ => rfl

/-- The wrapped sum, as 43 R100 writes it in numbers. -/
theorem ofNat_toNat_add_toNat (a v : Byte) : BitVec.ofNat 8 (a.toNat + v.toNat) = a + v := by
  bv_omega

/-- The wrapped difference, as 43 R102 writes it in numbers. -/
theorem ofNat_toNat_sub_toNat (a v : Byte) : BitVec.ofNat 8 (a.toNat + 256 - v.toNat) = a - v := by
  bv_omega

/-- The wrapped decrement, as 43 R103 and R104 write it in numbers. -/
theorem ofNat_toNat_add_255 (x : Byte) : BitVec.ofNat 8 (x.toNat + 255) = x - 1 := by
  bv_omega

/-- The flags after a completed instruction: its own change, then the shared flag rule on the value it names, if it
names one (40 R78). -/
theorem exec_flags {i : Instr} {s t : State} (h : exec i s = .next t) :
    t.flags = (flagValue i s).elim (ownFlags i s) (applyFlags (ownFlags i s)) := by
  cases i with
  | ldaAbs ea =>
    obtain ⟨-, rfl⟩ := exec_ldaAbs_next h
    rfl
  | sta ea =>
    obtain ⟨-, rfl⟩ := exec_sta_next h
    rfl
  | tax =>
    cases h
    exact applyFlags_idem s.flags s.regA
  | adc v =>
    cases h
    simp [flagValue, ownFlags, ofNat_toNat_add_toNat]
  | cmp v =>
    cases h
    simp [flagValue, ownFlags, ofNat_toNat_sub_toNat, compareFlags]
  | dex | dey =>
    cases h
    simp [flagValue, ownFlags, ofNat_toNat_add_255]
  | bpl _ | bne _ | beq _ =>
    cases h
    exact State.branch_flags ..
  | _ =>
    cases h
    rfl

/-- Settles O27: the shared rule assigns the zero bit, and nothing else touches it. -/
theorem zeroFlagSaysValueWasZero : Obligations.ZeroFlagSaysValueWasZero := by
  intro i s t h
  rw [exec_flags h]
  constructor
  · intro v hv
    simp [hv, BitVec.toNat_eq]
  · intro hnone
    simp [hnone, flagZ_ownFlags]

end Sys2Proof.Machine

/-! # Proofs about the access primitives -/

namespace Sys2Proof.Machine

/-- After a write in range, the address reads as the byte written. -/
theorem memRead_put_same {s t : State} {a : Nat} {v : Byte} (ha : a < s.mem.size) (ht : t.mem = s.mem.put a v) :
    memRead t a = .ok v :=
  memRead_ok_iff.mpr (by simp [ht, ha])

/-- A write leaves what every other address reads as, a fault included. -/
theorem memRead_put_other {s t : State} {a b : Nat} {v : Byte} (ht : t.mem = s.mem.put a v) (hb : b ≠ a) :
    memRead t b = memRead s b := by
  simp [memRead, ht, Memory.byteAt_put_other s.mem hb]

/-- Settles O5: the two sides of the bounds check; in range, the state with the byte put into its Memory is the one
`memWrite` gives, and it differs from the old one in Memory alone. -/
theorem memoryPrimitivesCheckAndStore : Obligations.MemoryPrimitivesCheckAndStore := by
  intro s a v
  constructor
  · intro hout
    exact ⟨memRead_out hout, memWrite_out hout v⟩
  · intro hin
    refine ⟨⟨_, memRead_in hin⟩, { s with mem := s.mem.put a v }, memWrite_in hin v, memRead_put_same hin rfl,
      fun b hb => memRead_put_other rfl hb, Memory.put_size .., ?_⟩
    simp [SameRegisters, SameHidden]

end Sys2Proof.Machine

/-! # Proofs about the encoding -/

namespace Sys2Proof

/-- When the operand bytes are all there, decoding takes the opcode and as many bytes as it asks for (30 R50 to R57). -/
theorem decode_cons_of_operandCount_le {op : Byte} {tail : List Byte} (h : operandCount op ≤ tail.length) :
    ∃ i, decode (op :: tail) = .ok (i, tail.drop (operandCount op)) := by
  cases hm : opcodeMap op with
  | impl i => exact ⟨i, by simp [decode, operandCount, hm]⟩
  | imm make | rel make =>
    simp only [operandCount, hm] at h
    obtain ⟨v, rest, rfl⟩ := List.exists_cons_of_length_pos h
    exact ⟨make v, by simp [decode, operandCount, hm]⟩
  | abs make =>
    simp only [operandCount, hm] at h
    match tail, h with
    | lo :: hi :: _, _ => exact ⟨make (absAddress lo hi), by simp [decode, operandCount, hm]⟩

/-- The operand counts of the opcode map: the length lists of 30 R57, less the opcode byte. -/
theorem operandCount_eq (op : Byte) :
    operandCount op =
      if op ∈ ([0x4C, 0x8D, 0xAD] : List Byte) then 2
      else if op ∈ ([0x10, 0x49, 0x69, 0xA0, 0xA2, 0xA9, 0xC9, 0xD0, 0xF0] : List Byte) then 1
      else 0 := by
  by_cases hop : op ∈ listedOpcodes
  · revert op
    decide
  · have hcount : operandCount op = 0 := by simp [operandCount, opcodeMap_of_unlisted hop]
    have habs : [0x4C, 0x8D, 0xAD] ⊆ listedOpcodes := by decide
    have himmRel : [0x10, 0x49, 0x69, 0xA0, 0xA2, 0xA9, 0xC9, 0xD0, 0xF0] ⊆ listedOpcodes := by decide
    rw [hcount, if_neg fun hmem => hop (habs hmem), if_neg fun hmem => hop (himmRel hmem)]

/-- Every opcode asks for at most two operand bytes. -/
theorem operandCount_le_two (op : Byte) : operandCount op ≤ 2 := by
  rw [operandCount_eq]
  split_ifs <;> decide

/-- Settles O3: two bytes after the opcode are always enough, and decoding drops as many as the opcode asks for. -/
theorem opcodeByteDecidesLength : Obligations.OpcodeByteDecidesLength := by
  intro op b1 b2 rest
  have henough : operandCount op ≤ (b1 :: b2 :: rest).length := (operandCount_le_two op).trans (by simp)
  obtain ⟨i, hi⟩ := decode_cons_of_operandCount_le henough
  refine ⟨i, ?_⟩
  rw [hi, operandCount_eq]
  split_ifs <;> rfl

end Sys2Proof

/-! # Proofs about the step and the default handler -/

namespace Sys2Proof

/-- An unlisted opcode asks for no operand byte (40 R86). -/
theorem operandCount_of_unlisted {op : Byte} (h : op ∉ listedOpcodes) : operandCount op = 0 := by
  simp [operandCount, opcodeMap_of_unlisted h]

/-- An unlisted opcode decodes alone, whatever follows it (40 R86). -/
theorem decode_of_unlisted {op : Byte} (h : op ∉ listedOpcodes) (rest : List Byte) :
    decode (op :: rest) = .ok (.nop op, rest) := by
  simp [decode, opcodeMap_of_unlisted h]

end Sys2Proof

namespace Sys2Proof.Machine

/-- Settles O21: the step command's response to a completed step begins with the snapshot of the new state. -/
theorem stateSnapshotCopiesTheNewState : Obligations.StateSnapshotCopiesTheNewState := by
  intro s t h
  rw [stepCommand_next h]
  exact ⟨rfl, rfl⟩

/-- An unlisted opcode costs `DEFAULT_COST` (40 R80). -/
theorem cost_of_unlisted {op : Byte} (h : op ∉ listedOpcodes) : cost op = Config.defaultCost :=
  if_neg fun hl => h ((isListed_iff op).mp hl)

/-- `finish` advances the pc by the instruction's length, modulo `2^16`. -/
theorem advancedBy_finish (s : State) (op : Byte) (n : Nat) : AdvancedBy n s (s.finish op n) := by
  simp [AdvancedBy]

/-- A completed handler adds the cost of its opcode to the clock, in numbers. -/
theorem exec_tickedBy {i : Instr} {s t : State} (h : exec i s = .next t) : TickedBy (opcodeOf i) s t := by
  simp [TickedBy, exec_clock h]

/-- Two states with one Memory read alike. -/
theorem SameMemory.of_mem_eq {s t : State} (h : t.mem = s.mem) : SameMemory s t :=
  ⟨congrArg Memory.size h, memRead_congr h⟩

/-- The default handler completes in every state and its effect is that of `finish` (40 R86). -/
theorem exec_nop (op : Byte) (s : State) : exec (.nop op) s = .next (s.finish op 1) := rfl

/-- A fetch faults at the opcode byte, or at the first operand byte that lies outside Memory, for every opcode and the
length the opcode map gives it. -/
theorem fetchFaults_operandCount (op : Byte) : FetchFaults op (operandCount op + 1) := by
  intro s hrun
  constructor
  · intro hout
    exact step_fetch_fault hrun (fetch_out hout)
  · intro hop k hk hlen hin hout
    exact step_fetch_fault hrun (fetch_operand_out hop hk (Nat.le_of_lt_succ hlen) hin hout)

/-- The fetch of an unlisted opcode reads that one byte: no byte need follow it (40 R86). -/
theorem fetch_of_unlisted {s : State} {op : Byte} (hop : op ∉ listedOpcodes) (h : memRead s s.pc.toNat = .ok op) :
    fetch s = .ok [op] := by
  simp [fetch, h, operandCount_of_unlisted hop, readBytes]

/-- A step at an unlisted opcode runs the default handler. -/
theorem step_of_unlisted {s : State} {op : Byte} (hop : op ∉ listedOpcodes) (hrun : s.halted = false)
    (h : memRead s s.pc.toNat = .ok op) : step s = .next ((s.finish op 1).noteInstruction (.nop op) s) := by
  rw [step_fetched hrun (fetch_of_unlisted hop h) (decode_of_unlisted hop []), exec_nop]
  rfl

/-- Settles O53: the opcode map sends an unlisted byte to the default handler, which asks for no operand and ends in
`finish` alone. -/
theorem defaultHandlerEffect : Obligations.DefaultHandlerEffect := by
  intro op hop
  refine ⟨decode_of_unlisted hop, fun s => ⟨s.finish op 1, exec_nop op s, ?_⟩,
    fun s hrun h => ⟨_, step_of_unlisted hop hrun h⟩, ?_⟩
  · have hregs : SameRegisters s (s.finish op 1) := ⟨rfl, rfl, rfl, rfl⟩
    have hclock : TickedBy op s (s.finish op 1) := exec_tickedBy (exec_nop op s)
    rw [TickedBy, cost_of_unlisted hop] at hclock
    exact ⟨hregs, rfl, advancedBy_finish s op 1, hclock, .of_mem_eq rfl, exec_hidden (exec_nop op s)⟩
  · have hfaults := fetchFaults_operandCount op
    rwa [operandCount_of_unlisted hop] at hfaults

end Sys2Proof.Machine

/-! # Proofs about the immediate loads

An immediate load is one shape at three registers: the value goes into the register, the shared flag rule runs on it,
and `finish` ends the instruction. What that shape does outside the registers is proved once. -/

namespace Sys2Proof.Machine

@[simp] theorem State.setReg_pc (s : State) (r : Reg) (v : Byte) : (s.setReg r v).pc = s.pc := by
  cases r <;> rfl

/-- The shared flag rule, read bit by bit, is what 40 R78 asks of the flags. -/
theorem sharedFlags_applyFlags (f v : Byte) : SharedFlags f (applyFlags f v) v := by
  refine ⟨?_, ?_, ?_⟩
  · rw [applyFlags_getLsbD, if_pos rfl, decide_eq_true_iff, BitVec.toNat_eq]
    rfl
  · rw [applyFlags_getLsbD, if_neg (by decide), if_pos rfl, Bool.or_eq_true, getLsbD_seven_iff v, or_comm]
  · intro k h1 h7
    rw [applyFlags_getLsbD, if_neg h1, if_neg h7]

/-- Outside the registers, an instruction that writes one register, runs the shared flag rule on the value and ends in
`finish` changes the flags, the pc and the clock, and nothing else. -/
theorem exec_setReg_sharedRule_finish {i : Instr} {s t : State} {r : Reg} {v : Byte} {n : Nat}
    (h : exec i s = .next t) (ht : t = ((s.setReg r v).sharedRule v).finish (opcodeOf i) n) :
    SharedFlags s.flags t.flags v ∧ AdvancedBy n s t ∧ TickedBy (opcodeOf i) s t ∧ SameMemory s t ∧
      SameHidden s t := by
  have hflags : t.flags = applyFlags s.flags v := by simp [ht]
  have hpc : AdvancedBy n s t := by simp [AdvancedBy, ht]
  have hmem : t.mem = s.mem := by simp [ht]
  rw [hflags]
  exact ⟨sharedFlags_applyFlags s.flags v, hpc, exec_tickedBy h, .of_mem_eq hmem, exec_hidden h⟩

theorem exec_ldaImm (v : Byte) (s : State) :
    exec (.ldaImm v) s = .next (((s.setReg .a v).sharedRule v).finish 0xA9 2) := rfl

theorem exec_ldx (v : Byte) (s : State) :
    exec (.ldx v) s = .next (((s.setReg .x v).sharedRule v).finish 0xA2 2) := rfl

theorem exec_ldy (v : Byte) (s : State) :
    exec (.ldy v) s = .next (((s.setReg .y v).sharedRule v).finish 0xA0 2) := rfl

/-- Settles O34: `LDA #` is the load shape at `A`, with one operand byte to fetch. -/
theorem ldaImmediateEffect : Obligations.LdaImmediateEffect := by
  refine ⟨fun _ _ => rfl, fun v s => ⟨_, exec_ldaImm v s, ?_⟩, fetchFaults_operandCount 0xA9⟩
  exact ⟨rfl, rfl, rfl, rfl, exec_setReg_sharedRule_finish (exec_ldaImm v s) rfl⟩

/-- Settles O36: `LDX #` is the load shape at `X`, with one operand byte to fetch. -/
theorem ldxImmediateEffect : Obligations.LdxImmediateEffect := by
  refine ⟨fun _ _ => rfl, fun v s => ⟨_, exec_ldx v s, ?_⟩, fetchFaults_operandCount 0xA2⟩
  exact ⟨rfl, rfl, rfl, rfl, exec_setReg_sharedRule_finish (exec_ldx v s) rfl⟩

/-- Settles O37: `LDY #` is the load shape at `Y`, with one operand byte to fetch. -/
theorem ldyImmediateEffect : Obligations.LdyImmediateEffect := by
  refine ⟨fun _ _ => rfl, fun v s => ⟨_, exec_ldy v s, ?_⟩, fetchFaults_operandCount 0xA0⟩
  exact ⟨rfl, rfl, rfl, rfl, exec_setReg_sharedRule_finish (exec_ldy v s) rfl⟩

end Sys2Proof.Machine

/-! # Proofs about the register transfers

`TYA` and `TXS` have the shape of the immediate loads, with the value taken from a register instead of an operand:
the lemma on that shape serves them too. -/

namespace Sys2Proof.Machine

/-- `TYA` writes `Y` into `A` and runs the shared flag rule on it (42 R96). -/
theorem exec_tya (s : State) :
    exec .tya s = .next (((s.setReg .a s.regY).sharedRule s.regY).finish 0x98 1) := rfl

/-- `TXS` writes `X` into `S` and runs the shared flag rule on it (42 R97). -/
theorem exec_txs (s : State) :
    exec .txs s = .next (((s.setReg .s s.regX).sharedRule s.regX).finish 0x9A 1) := rfl

/-- Settles O40: `TYA` is the load shape at `A` with the value `Y`, and no operand byte to fetch. -/
theorem tyaEffect : Obligations.TyaEffect := by
  refine ⟨fun _ => rfl, fun s => ⟨_, exec_tya s, ?_⟩, fetchFaults_operandCount 0x98⟩
  exact ⟨rfl, rfl, rfl, rfl, exec_setReg_sharedRule_finish (exec_tya s) rfl⟩

/-- Settles O41: `TXS` is the load shape at `S` with the value `X`, so it updates the flags, and there is no operand
byte to fetch. -/
theorem txsEffect : Obligations.TxsEffect := by
  refine ⟨fun _ => rfl, fun s => ⟨_, exec_txs s, ?_⟩, fetchFaults_operandCount 0x9A⟩
  exact ⟨rfl, rfl, rfl, rfl, exec_setReg_sharedRule_finish (exec_txs s) rfl⟩

end Sys2Proof.Machine

/-! # Proofs about arithmetic and logic

`DEX` and `DEY` have the shape of the immediate loads, with the decremented register as the value; `EOR #` writes a
register and ends in `finish` without the shared flag rule. -/

namespace Sys2Proof.Machine

/-- The wrapped decrement in integers: 0 goes to 255 (43 R103, R104). -/
theorem toNat_sub_one_eq_emod (x : Byte) : ((x - 1).toNat : Int) = ((x.toNat : Int) - 1) % 256 := by
  bv_omega

/-- `DEX` writes `X - 1` into `X` and runs the shared flag rule on it (43 R103). -/
theorem exec_dex (s : State) :
    exec .dex s = .next (((s.setReg .x (s.regX - 1)).sharedRule (s.regX - 1)).finish 0xCA 1) := rfl

/-- `DEY` writes `Y - 1` into `Y` and runs the shared flag rule on it (43 R104). -/
theorem exec_dey (s : State) :
    exec .dey s = .next (((s.setReg .y (s.regY - 1)).sharedRule (s.regY - 1)).finish 0x88 1) := rfl

/-- `EOR #` writes the exclusive-or into `A` and leaves the flags (43 R101). -/
theorem exec_eor (v : Byte) (s : State) :
    exec (.eor v) s = .next ((s.setReg .a (s.regA ^^^ v)).finish 0x49 2) := rfl

/-- Settles O43: `EOR #` writes `A` alone before `finish`, with one operand byte to fetch. -/
theorem eorImmediateEffect : Obligations.EorImmediateEffect := by
  refine ⟨fun _ _ => rfl, fun v s => ⟨_, exec_eor v s, ?_⟩, fetchFaults_operandCount 0x49⟩
  have hbits (k : Nat) : (s.regA ^^^ v).getLsbD k = (s.regA.getLsbD k != v.getLsbD k) := BitVec.getLsbD_xor
  exact ⟨hbits, rfl, rfl, rfl, rfl, advancedBy_finish (s.setReg .a (s.regA ^^^ v)) 0x49 2,
    exec_tickedBy (exec_eor v s), .of_mem_eq rfl, exec_hidden (exec_eor v s)⟩

/-- Settles O45: `DEX` is the load shape at `X` with the value `X - 1`, and no operand byte to fetch. -/
theorem dexEffect : Obligations.DexEffect := by
  refine ⟨fun _ => rfl, fun s => ⟨_, exec_dex s, ?_⟩, fetchFaults_operandCount 0xCA⟩
  exact ⟨toNat_sub_one_eq_emod s.regX, rfl, rfl, rfl, exec_setReg_sharedRule_finish (exec_dex s) rfl⟩

/-- Settles O46: `DEY` is the load shape at `Y` with the value `Y - 1`, and no operand byte to fetch. -/
theorem deyEffect : Obligations.DeyEffect := by
  refine ⟨fun _ => rfl, fun s => ⟨_, exec_dey s, ?_⟩, fetchFaults_operandCount 0x88⟩
  exact ⟨toNat_sub_one_eq_emod s.regY, rfl, rfl, rfl, exec_setReg_sharedRule_finish (exec_dey s) rfl⟩

end Sys2Proof.Machine

/-! # Proofs about the flag instructions -/

namespace Sys2Proof.Machine

/-- `CLC` clears the carry and ends in `finish` (44 R107). -/
theorem exec_clc (s : State) : exec .clc s = .next ((s.setFlags (clearCarry s.flags)).finish 0x18 1) := rfl

/-- Settles O47: `CLC` writes the flags alone before `finish`, its mask keeps every bit but the carry, and there is no
operand byte to fetch. -/
theorem clcEffect : Obligations.ClcEffect := by
  refine ⟨fun _ => rfl, fun s => ⟨_, exec_clc s, ?_⟩, fetchFaults_operandCount 0x18⟩
  have hregs : SameRegisters s ((s.setFlags (clearCarry s.flags)).finish 0x18 1) := ⟨rfl, rfl, rfl, rfl⟩
  have hkept (k : Nat) (hk : k ≠ 0) : (clearCarry s.flags).getLsbD k = s.flags.getLsbD k := by
    rw [clearCarry_getLsbD, if_neg hk]
  exact ⟨hregs, flagC_clearCarry s.flags, hkept, advancedBy_finish (s.setFlags (clearCarry s.flags)) 0x18 1,
    exec_tickedBy (exec_clc s), .of_mem_eq rfl, exec_hidden (exec_clc s)⟩

end Sys2Proof.Machine

/-! # Proofs about the branches

The three branches are one shape, `State.branch`, with a condition each. Where the pc goes and what the shape leaves
unchanged is proved once, for every condition. -/

namespace Sys2Proof.Machine

/-- The model's test of bit 7 reads the offset byte as the spec's number does (40 R76). -/
theorem signedOffset_eq_offsetValue (off : Byte) : signedOffset off = offsetValue off := by
  simp only [signedOffset, offsetValue, getLsbD_seven_iff]

/-- The narrowed branch target in integers, for offsets of either sign (40 R76). -/
theorem branchTarget_toNat (pc : Addr) (off : Byte) :
    ((branchTarget pc off).toNat : Int) = ((pc.toNat : Int) + 2 + offsetValue off) % 65536 := by
  rw [branchTarget, signedOffset_eq_offsetValue, BitVec.toNat_ofInt]
  exact Int.toNat_of_nonneg (Int.emod_nonneg _ (by decide))

/-- A branch whose condition holds goes to its target. -/
theorem branch_pc_of_taken {s : State} {op off : Byte} {taken : Bool} (h : taken = true) :
    ((s.branch op taken off).pc.toNat : Int) = ((s.pc.toNat : Int) + 2 + offsetValue off) % 65536 := by
  rw [State.branch_pc, if_pos h, branchTarget_toNat]

/-- A branch whose condition fails falls through its two bytes. -/
theorem advancedBy_branch_of_not_taken {s : State} {op off : Byte} {taken : Bool} (h : taken = false) :
    AdvancedBy 2 s (s.branch op taken off) := by
  simp [AdvancedBy, h]

/-- Outside the pc, an instruction that ends in `branch` changes the clock and nothing else, taken or not. -/
theorem exec_branch_frame {i : Instr} {s t : State} {off : Byte} {taken : Bool} (h : exec i s = .next t)
    (ht : t = s.branch (opcodeOf i) taken off) :
    SameRegisters s t ∧ t.flags = s.flags ∧ TickedBy (opcodeOf i) s t ∧ SameMemory s t ∧ SameHidden s t := by
  have hregs : SameRegisters s t := by simp [SameRegisters, ht]
  have hflags : t.flags = s.flags := by simp [ht]
  have hmem : t.mem = s.mem := by simp [ht]
  exact ⟨hregs, hflags, exec_tickedBy h, .of_mem_eq hmem, exec_hidden h⟩

theorem exec_bpl (off : Byte) (s : State) : exec (.bpl off) s = .next (s.branch 0x10 (!flagN s.flags) off) := rfl

theorem exec_bne (off : Byte) (s : State) : exec (.bne off) s = .next (s.branch 0xD0 (!flagZ s.flags) off) := rfl

theorem exec_beq (off : Byte) (s : State) : exec (.beq off) s = .next (s.branch 0xF0 (flagZ s.flags) off) := rfl

/-- Settles O49: `BPL` is the branch shape with the condition "`N` is clear", and one operand byte to fetch. -/
theorem bplEffect : Obligations.BplEffect := by
  refine ⟨fun _ _ => rfl, fun r s => ⟨_, exec_bpl r s, ?_, ?_, exec_branch_frame (exec_bpl r s) rfl⟩,
    fetchFaults_operandCount 0x10⟩
  · intro hclear
    exact branch_pc_of_taken (congrArg Bool.not hclear)
  · intro hset
    exact advancedBy_branch_of_not_taken (congrArg Bool.not hset)

/-- Settles O50: `BNE` is the branch shape with the condition "`Z` is clear", and one operand byte to fetch. -/
theorem bneEffect : Obligations.BneEffect := by
  refine ⟨fun _ _ => rfl, fun r s => ⟨_, exec_bne r s, ?_, ?_, exec_branch_frame (exec_bne r s) rfl⟩,
    fetchFaults_operandCount 0xD0⟩
  · intro hclear
    exact branch_pc_of_taken (congrArg Bool.not hclear)
  · intro hset
    exact advancedBy_branch_of_not_taken (congrArg Bool.not hset)

/-- Settles O51: `BEQ` is the branch shape with the condition "`Z` is set", and one operand byte to fetch. -/
theorem beqEffect : Obligations.BeqEffect := by
  refine ⟨fun _ _ => rfl, fun r s => ⟨_, exec_beq r s, ?_, ?_, exec_branch_frame (exec_beq r s) rfl⟩,
    fetchFaults_operandCount 0xF0⟩
  · exact branch_pc_of_taken
  · exact advancedBy_branch_of_not_taken

end Sys2Proof.Machine

/-! # Proofs about a store and the fetch after it -/

namespace Sys2Proof

/-- The bytes of `STA abs` decode to it, with its operand whole (30 R54, R56). -/
theorem decode_encode_sta (ea : Addr) : decode (encode (.sta ea)) = .ok (.sta ea, []) := by
  show Except.ok (Instr.sta (absAddress (lowByte ea) (highByte ea)), []) = _
  rw [absAddress_lowByte_highByte]

end Sys2Proof

namespace Sys2Proof.Machine

/-- A step at a `STA abs` whose data address is inside Memory stores the accumulator there and completes. -/
theorem step_sta_in {s : State} {ea : Addr} (hrun : s.halted = false) (hat : BytesAt s s.pc.toNat (encode (.sta ea)))
    (hin : dataAddress ea < s.mem.size) :
    step s = .next ((({ s with mem := s.mem.put (dataAddress ea) s.regA } : State).finish 0x8D 3).noteInstruction
      (.sta ea) s) := by
  have hfetch : fetch s = .ok (encode (.sta ea)) := fetch_of_bytesAt (Laws.Encoding.sta ea rfl) hat
  rw [step_fetched hrun hfetch (decode_encode_sta ea), exec_sta_in hin]
  rfl

/-- Settles O8: the next fetch reads the Memory the store left, so the law of a read after a write gives each byte, at
the stored address and at every other. -/
theorem storedByteIsFetchedByTheNextStep : Obligations.StoredByteIsFetchedByTheNextStep := by
  intro s ea hrun hat hin
  refine ⟨_, step_sta_in hrun hat hin, fun bytes hfetch k b hk => ?_⟩
  obtain ⟨-, -, -, -, -, hfetched⟩ := fetch_ok hfetch
  have hread := hfetched k b hk
  constructor
  · intro hsame
    rw [hsame, memRead_put_same hin rfl] at hread
    exact (Except.ok.inj hread).symm
  · intro hother
    rwa [memRead_put_other rfl hother] at hread

end Sys2Proof.Machine

/-! # Proofs about the decoder and the encoder as inverses -/

namespace Sys2Proof

/-- The encoder writes as many operand bytes as the opcode asks for (30 R57). -/
theorem length_operandBytes {i : Instr} (hwf : i.wf = true) : (operandBytes i).length = operandCount (opcodeOf i) := by
  cases i with
  | nop op => exact Laws.Encoding.nop op hwf
  | _ => rfl

/-- The decoder reads an instruction back from its encoding, whatever follows it (30 sections 1 to 4). -/
theorem decode_encode_append {i : Instr} (hwf : i.wf = true) (rest : List Byte) :
    decode (encode i ++ rest) = .ok (i, rest) := by
  cases i with
  | ldaAbs ea | sta ea | jmp ea =>
    simp [encode, opcodeOf, operandBytes, decode, opcodeMap]
  | nop op => exact decode_of_unlisted (not_mem_listedOpcodes_of_nop_wf hwf) rest
  | _ => rfl

/-- Settles O1: the operand bytes read back as they stand, an address after its two halves are joined. -/
theorem decodeOfEncodeIsTheInstruction : Obligations.DecodeOfEncodeIsTheInstruction := fun _ rest hwf =>
  decode_encode_append hwf rest

/-- A row of the opcode map without an operand holds a well-formed instruction: the default handler stands at no
listed opcode (30 R58). -/
theorem wf_of_opcodeMap_impl {op : Byte} {i : Instr} (h : opcodeMap op = .impl i) : i.wf = true := by
  unfold opcodeMap at h
  split at h <;> cases h
  case h_20 => simp_all [Instr.wf, isListed, listedOpcodes]
  all_goals rfl

theorem wf_of_opcodeMap_imm {op : Byte} {make : Byte → Instr} (h : opcodeMap op = .imm make) (v : Byte) :
    (make v).wf = true := by
  unfold opcodeMap at h
  split at h <;> cases h <;> rfl

theorem wf_of_opcodeMap_rel {op : Byte} {make : Byte → Instr} (h : opcodeMap op = .rel make) (off : Byte) :
    (make off).wf = true := by
  unfold opcodeMap at h
  split at h <;> cases h <;> rfl

theorem wf_of_opcodeMap_abs {op : Byte} {make : Addr → Instr} (h : opcodeMap op = .abs make) (ea : Addr) :
    (make ea).wf = true := by
  unfold opcodeMap at h
  split at h <;> cases h <;> rfl

/-- What decodes is well formed, since every row of the opcode map is. -/
theorem wf_of_decode {bytes rest : List Byte} {i : Instr} (h : decode bytes = .ok (i, rest)) : i.wf = true := by
  unfold decode at h
  split at h
  case h_1 => cases h
  case h_2 op tail =>
    split at h
    case h_1 hm => cases h; exact wf_of_opcodeMap_impl hm
    case h_2 hm => cases h; exact wf_of_opcodeMap_imm hm _
    case h_3 hm => cases h; exact wf_of_opcodeMap_rel hm _
    case h_4 hm => cases h; exact wf_of_opcodeMap_abs hm _
    all_goals cases h

/-- Settles O2: every row of the opcode map is well formed and encodes as the bytes it was read from. -/
theorem encodeOfDecodeIsTheBytes : Obligations.EncodeOfDecodeIsTheBytes := fun _ _ _ h =>
  ⟨wf_of_decode h, eq_encode_append_of_decode h⟩

/-- Settles O4: each of the ten words is closed, so the decoder evaluates it. -/
theorem writtenOutWordsDecode : Obligations.WrittenOutWordsDecode := by
  unfold Obligations.WrittenOutWordsDecode
  decide

end Sys2Proof

/-! # Proofs about the legal states -/

namespace Sys2Proof.Machine

/-- No instruction sets one of the unused flag bits 2 to 6 on its own. -/
theorem getLsbD_ownFlags_of_unused {i : Instr} {s : State} {k : Nat} (hlow : 2 ≤ k) (hhigh : k ≤ 6)
    (h : s.flags.getLsbD k = false) : (ownFlags i s).getLsbD k = false := by
  cases i with
  | cmp v => rwa [ownFlags, assignCarry_getLsbD, if_neg (by omega)]
  | clc => rwa [ownFlags, clearCarry_getLsbD, if_neg (by omega)]
  | cld => rw [ownFlags, clearDecimal_getLsbD, if_neg (by omega)]
  | _ => exact h

/-- A completed handler sets none of the unused flag bits 2 to 6 (10 R21). -/
theorem exec_unused_flags {i : Instr} {s t : State} {k : Nat} (h : exec i s = .next t) (hlow : 2 ≤ k) (hhigh : k ≤ 6)
    (hclear : s.flags.getLsbD k = false) : t.flags.getLsbD k = false := by
  have hown : (ownFlags i s).getLsbD k = false := getLsbD_ownFlags_of_unused hlow hhigh hclear
  rw [exec_flags h]
  cases flagValue i s with
  | none => exact hown
  | some v =>
    show (applyFlags (ownFlags i s) v).getLsbD k = false
    rwa [applyFlags_getLsbD, if_neg (by omega), if_neg (by omega)]

/-- Settles O13: a step keeps the form and the length of Memory, and no handler sets an unused flag bit. -/
theorem stepKeepsLegalStates : Obligations.StepKeepsLegalStates := by
  intro s t ⟨hform, hlow, hhigh, hunused⟩ h
  refine ⟨step_mem_wf h hform, ?_, ?_, ?_⟩
  · rwa [step_mem_size h]
  · rwa [step_mem_size h]
  · intro k h2 h6
    obtain ⟨i, u, -, hu, rfl⟩ := step_next_bytesAt h
    rw [State.noteInstruction_flags]
    exact exec_unused_flags hu h2 h6 (hunused k h2 h6)

/-! ## Loads -/

/-- Settles O15: a loaded image is in canonical form and as long as it is, and the flags are those of the reset
state. -/
theorem loadedStatesAreLegal : Obligations.LoadedStatesAreLegal := by
  intro image ⟨hlow, hhigh⟩
  refine ⟨Memory.ofImage_wf image, hlow, hhigh, fun k _ _ => ?_⟩
  exact BitVec.getLsbD_zero

/-- A load of zeros lists no cell, so it is the reset state. -/
theorem load_zeros : State.load (List.replicate Config.maxMemSize 0) = State.reset := by
  have hmem : Memory.ofImage (List.replicate Config.maxMemSize 0) = ⟨Config.maxMemSize, []⟩ := by
    rw [Memory.ofImage, List.length_replicate]
    exact congrArg (Memory.mk _) (cellsOfBytes_zeros 0 _)
  rw [State.load, hmem]
  rfl

/-- Settles O17: zeros leave no cell listed. -/
theorem resetIsTheLoadOfZeros : Obligations.ResetIsTheLoadOfZeros := load_zeros.symm

/-- Settles O14: the reset state is the load of an image of the greatest legal length. -/
theorem resetStateIsLegal : Obligations.ResetStateIsLegal := by
  unfold Obligations.ResetStateIsLegal
  rw [← load_zeros]
  refine loadedStatesAreLegal _ ?_
  rw [legalImage, List.length_replicate]
  decide

/-- Settles O16: the loaded Memory reads as the image, and every other field is the reset state's. -/
theorem loadPlacesTheImage : Obligations.LoadPlacesTheImage := by
  intro image
  refine ⟨rfl, rfl, fun a b hb => ?_, rfl, rfl, rfl, rfl, rfl, rfl, rfl⟩
  obtain ⟨hin, -⟩ := List.getElem?_eq_some_iff.mp hb
  exact memRead_ok_iff.mpr ⟨hin, Memory.byteAt_ofImage image a b hb⟩

/-- Settles O18: the entry address lies outside Memory. -/
theorem shortImageFaultsAtItsFirstFetch : Obligations.ShortImageFaultsAtItsFirstFetch := fun image h =>
  have hout : (State.load image).mem.size ≤ (State.load image).pc.toNat := h
  step_fetch_fault rfl (fetch_out hout)

/-! ## The canonical form of Memory -/

/-- In a list whose addresses rise, the cell listed at an address is the one read there. -/
theorem cellsByte_of_mem {cells : List Host.Cell} (hs : (cells.map Prod.fst).Pairwise (· < ·)) {c : Host.Cell}
    (hc : c ∈ cells) : cellsByte c.1 cells = c.2 := by
  induction cells with
  | nil => cases hc
  | cons d rest ih =>
    rw [List.map_cons, List.pairwise_cons] at hs
    obtain ⟨hlt, hrest⟩ := hs
    rcases List.mem_cons.mp hc with rfl | hc
    · simp [cellsByte]
    · have hne : d.1 ≠ c.1 := (hlt c.1 (List.mem_map_of_mem hc)).ne
      rw [cellsByte, if_neg hne, ih hrest hc]

/-- A byte that no unlisted address reads as comes from a listed cell. -/
theorem mem_of_cellsByte {cells : List Host.Cell} {a : Nat} (h : cellsByte a cells ≠ unlistedByte) :
    (a, cellsByte a cells) ∈ cells := by
  induction cells with
  | nil => exact absurd rfl h
  | cons d rest ih =>
    rw [cellsByte] at h ⊢
    split_ifs at h ⊢ with hd
    · subst hd
      exact List.mem_cons_self
    · exact List.mem_cons_of_mem _ (ih h)

/-- The cells of a Memory in canonical form are its bytes that no unlisted address reads as. -/
theorem Memory.mem_cells_iff {m : Memory} (h : m.wf) (c : Host.Cell) :
    c ∈ m.cells ↔ m.byteAt c.1 = c.2 ∧ c.2 ≠ unlistedByte := by
  obtain ⟨hs, hlisted⟩ := h
  constructor
  · intro hc
    exact ⟨cellsByte_of_mem hs hc, (hlisted c hc).2⟩
  · intro ⟨hread, hne⟩
    have hmem : (c.1, m.byteAt c.1) ∈ m.cells := mem_of_cellsByte (hread.trans_ne hne)
    rwa [hread] at hmem

/-- Settles O6: both lists have the cells that the bytes read give, and rising lists with the same cells are equal. -/
theorem canonicalMemoriesThatReadAlikeAreEqual : Obligations.CanonicalMemoriesThatReadAlikeAreEqual := by
  intro m n hm hn hsize hread
  have hiff (c : Host.Cell) : c ∈ m.cells ↔ c ∈ n.cells := by
    rw [Memory.mem_cells_iff hm, Memory.mem_cells_iff hn, hread]
  have hcells : m.cells = n.cells :=
    (List.pairwise_map.mp hm.1).eq_of_mem_iff (List.pairwise_map.mp hn.1) hiff
  calc m = ⟨m.size, m.cells⟩ := rfl
    _ = ⟨n.size, n.cells⟩ := by rw [hsize, hcells]
    _ = n := rfl

end Sys2Proof.Machine

/-! # Proofs about the step: it is the `exec` of the instruction at `pc` -/

namespace Sys2Proof.Machine

/-- The fetched bytes are the encoding of one well-formed instruction, whole and with nothing after it. -/
theorem encode_of_fetch {s : State} {bytes : List Byte} (h : fetch s = .ok bytes) :
    ∃ i, i.wf = true ∧ bytes = encode i := by
  obtain ⟨op, operands, rfl, hlen, -, -⟩ := fetch_ok h
  obtain ⟨i, hd⟩ := decode_cons_of_operandCount_le hlen.ge
  have hbytes := eq_encode_append_of_decode hd
  rw [List.drop_of_length_le hlen.le, List.append_nil] at hbytes
  exact ⟨i, wf_of_decode hd, hbytes⟩

/-- A running engine that fetches an encoding runs that instruction. -/
theorem step_of_fetch_encode {s : State} {i : Instr} (hrun : s.halted = false) (hwf : i.wf = true)
    (hf : fetch s = .ok (encode i)) : step s = retire i s (exec i s) :=
  step_fetched hrun hf (by simpa using decode_encode_append hwf [])

/-- A running engine with the bytes of a well-formed instruction at `pc` runs it (40 R71 to R73). -/
theorem step_of_bytesAt {s : State} {i : Instr} (hrun : s.halted = false) (hwf : i.wf = true)
    (hat : BytesAt s s.pc.toNat (encode i)) : step s = retire i s (exec i s) :=
  step_of_fetch_encode hrun hwf (fetch_of_bytesAt (length_operandBytes hwf) hat)

theorem step_of_exec_fault {s : State} {i : Instr} {f : Fault} (hrun : s.halted = false) (hwf : i.wf = true)
    (hat : BytesAt s s.pc.toNat (encode i)) (h : exec i s = .fault f) : step s = .fault f := by
  rw [step_of_bytesAt hrun hwf hat, h]
  rfl

theorem step_of_exec_next {s t : State} {i : Instr} (hrun : s.halted = false) (hwf : i.wf = true)
    (hat : BytesAt s s.pc.toNat (encode i)) (h : exec i s = .next t) : step s = .next (t.noteInstruction i s) := by
  rw [step_of_bytesAt hrun hwf hat, h]
  rfl

/-- Every instruction has a meaning. -/
theorem exec_ne_refused (i : Instr) (s : State) (r : Refusal) : exec i s ≠ .refused r := by
  rcases exec_cases i s with ⟨t, h⟩ | ⟨ea, -, -, h⟩ <;> simp [h]

/-- Settles O9: the step is the `exec` of the instruction at `pc`, retired. -/
theorem stepRunsTheDecodedInstruction : Obligations.StepRunsTheDecodedInstruction := fun s i hrun hwf hat =>
  ⟨fun _ h => step_of_exec_next hrun hwf hat h, fun _ h => step_of_exec_fault hrun hwf hat h, exec_ne_refused i s⟩

/-- Settles O10: a halted engine and a fetch out of range fault, and what is fetched is the encoding of an instruction,
none of which is refused. -/
theorem noStepIsRefused : Obligations.NoStepIsRefused := by
  intro s r
  cases hh : s.halted with
  | true => simp [step_halted hh]
  | false =>
    cases hf : fetch s with
    | error f => simp [step_fetch_fault hh hf]
    | ok bytes =>
      obtain ⟨i, hwf, rfl⟩ := encode_of_fetch hf
      rw [step_of_fetch_encode hh hwf hf]
      rcases exec_cases i s with ⟨t, h⟩ | ⟨ea, -, -, h⟩ <;> simp [h, retire]

/-- Settles O11: the one fault a handler can end in is excluded. -/
theorem stepCompletesWhenAllAddressesAreInside : Obligations.StepCompletesWhenAllAddressesAreInside := by
  intro s i hrun hwf hat hin
  rcases exec_cases i s with ⟨t, h⟩ | ⟨ea, hi, hout, -⟩
  · exact ⟨_, step_of_exec_next hrun hwf hat h⟩
  · exact absurd (hin ea hi) hout.not_gt

/-- Settles O12: a running engine faults in the fetch or in the handler of the fetched instruction. -/
theorem stepFaultsOnlyForAnAccessOutOfRange : Obligations.StepFaultsOnlyForAnAccessOutOfRange := by
  intro s f hrun h
  rcases step_fault h with ⟨hh, -⟩ | ⟨-, hf⟩ | ⟨bytes, i, rest, -, hf, hd, hx⟩
  · simp [hrun] at hh
  · rcases fetch_error hf with ⟨rfl, hout⟩ | ⟨op, k, hop, hk, rfl, hout⟩
    · exact ⟨_, rfl, hout, .inl rfl⟩
    · exact ⟨_, rfl, hout, .inr (.inl ⟨op, hop, by omega, by omega⟩)⟩
  · obtain ⟨-, -, -, -, -, hat⟩ := fetch_ok hf
    rw [eq_encode_append_of_decode hd] at hat
    rcases exec_cases i s with ⟨t, ht⟩ | ⟨ea, hi, hout, hfault⟩
    · cases ht.symm.trans hx
    · cases hfault.symm.trans hx
      refine ⟨_, rfl, hout, .inr (.inr ⟨ea, rfl, ?_⟩)⟩
      rcases hi with rfl | rfl
      · exact .inl hat.of_append
      · exact .inr hat.of_append

/-! ## The cost of a step -/

/-- Every cost lies between 1 and 5, whatever the free values are (00 R6). -/
theorem cost_bounds (op : Byte) : 1 ≤ cost op ∧ cost op ≤ 5 := by
  have hlisted := (Config.listedCostStep op).isLt
  have hdefault := Config.defaultCostStep.isLt
  unfold cost Config.listedCost Config.defaultCost
  split <;> omega

/-- Settles O30: the completed step ran the instruction whose opcode stands at `pc`, and its handler added the cost. -/
theorem stepAddsTheOpcodesCost : Obligations.StepAddsTheOpcodesCost := by
  intro s t h
  obtain ⟨i, u, hat, hu, rfl⟩ := step_next_bytesAt h
  obtain ⟨hlow, hhigh⟩ := cost_bounds (opcodeOf i)
  have hticked : TickedBy (opcodeOf i) s (u.noteInstruction i s) := exec_tickedBy (t := u) hu
  exact ⟨opcodeOf i, hat 0 _ rfl, hticked, hlow, hhigh, cost_of_unlisted⟩

/-! ## A finished program -/

/-- A step of a finished program changes the clock and the diagnostic text alone (70 R150). -/
theorem step_selfJump {s : State} (hrun : s.halted = false) (hjump : AtSelfJump s) :
    step s = .next (((s.setPc s.pc).tick 0x4C).noteInstruction (.jmp s.pc) s) :=
  step_of_exec_next hrun rfl hjump rfl

/-- A state with the Memory and the pc of a finished program is one. -/
theorem AtSelfJump.congr {s t : State} (h : AtSelfJump s) (hmem : t.mem = s.mem) (hpc : t.pc = s.pc) :
    AtSelfJump t := by
  intro k b hk
  rw [hpc] at hk ⊢
  rw [memRead_congr hmem]
  exact h k b hk

/-- Settles O33, by induction on the number of steps: the state after one of them is finished too. -/
theorem finishedProgramStaysFinished : Obligations.FinishedProgramStaysFinished := by
  intro n
  induction n with
  | zero =>
    intro s hrun hjump
    exact ⟨s, rfl, hjump, rfl, ⟨rfl, rfl, rfl, rfl⟩, rfl, rfl, hrun, by have := s.clock.isLt; omega⟩
  | succ n ih =>
    intro s hrun hjump
    have hstep := step_selfJump hrun hjump
    have hclock := exec_tickedBy (i := .jmp s.pc) (s := s) rfl
    obtain ⟨t, ht, hjump', hpc, hregs, hflags, hmem, hrun', hclock'⟩ :=
      ih (((s.setPc s.pc).tick 0x4C).noteInstruction (.jmp s.pc) s) hrun (hjump.congr rfl rfl)
    refine ⟨t, (run_succ_next hstep).trans ht, hjump', hpc, hregs, hflags, hmem, hrun', ?_⟩
    calc t.clock.toNat
        = ((s.clock.toNat + cost 0x4C) % 2 ^ 64 + n * cost 0x4C) % 2 ^ 64 := by
          rw [hclock', State.noteInstruction_clock, hclock]; rfl
      _ = (s.clock.toNat + (n + 1) * cost 0x4C) % 2 ^ 64 := by
          rw [Nat.mod_add_mod, Nat.add_assoc, Nat.succ_mul, Nat.add_comm (cost 0x4C)]

end Sys2Proof.Machine

/-! # Proofs about the halted engine and the outputs -/

namespace Sys2Proof.Machine

/-- Settles O20, by induction on the number of step commands: a halted engine answers each with itself. -/
theorem haltedEngineDoesNothing : Obligations.HaltedEngineDoesNothing := by
  intro s hhalt
  refine ⟨step_halted hhalt, fun n => ?_⟩
  induction n with
  | zero => exact ⟨rfl, rfl⟩
  | succ n ih =>
    rw [runState, runOutputs, stepCommand_halted hhalt]
    exact ih

/-- Settles O19: the fault halts the engine, and a halted engine does nothing. -/
theorem faultIsPreciseAndFinal : Obligations.FaultIsPreciseAndFinal := by
  intro s addr h
  have hcmd := stepCommand_fault h
  refine ⟨by rw [hcmd], fun n => ?_⟩
  obtain ⟨-, hrest⟩ := haltedEngineDoesNothing s.halt rfl
  rw [runState, runOutputs, hcmd]
  exact hrest n

theorem windowLow_eq (s : State) : windowLow s = s.pc.toNat - 255 := rfl

theorem windowEnd_eq (s : State) : windowEnd s = min s.mem.size (s.pc.toNat + 257) := rfl

/-- The window is as long as its range of addresses. -/
theorem length_memoryWindow (s : State) : (memoryWindow s).bytes.length = windowEnd s - windowLow s := by
  simp [memoryWindow]

/-- Every byte of the window is the one Memory holds, in range. -/
theorem bytesAt_memoryWindow (s : State) : BytesAt s (windowLow s) (memoryWindow s).bytes := by
  intro k b hk
  obtain ⟨hlt, hb⟩ := List.getElem?_eq_some_iff.mp hk
  rw [length_memoryWindow, windowEnd_eq] at hlt
  refine memRead_ok_iff.mpr ⟨by omega, ?_⟩
  simpa [memoryWindow] using hb

/-- Settles O22: the window is as long as the clamped range, and its bytes are reads in range. -/
theorem memoryWindowIsClampedToMemory : Obligations.MemoryWindowIsClampedToMemory := by
  intro s
  have hlen := length_memoryWindow s
  rw [windowEnd_eq, windowLow_eq] at hlen
  exact ⟨windowLow_eq s, by omega, by omega, bytesAt_memoryWindow s⟩

/-- A step command whose step completes puts its pair of snapshots before all that the later ones emit. -/
theorem runOutputs_succ {n : Nat} {s t : State} (h : step s = .next t) :
    runOutputs (n + 1) s = .state (stateSnapshot t) :: .window (memoryWindow t) :: runOutputs n t := by
  rw [runOutputs, stepCommand_next h]
  rfl

theorem runState_succ {n : Nat} {s t : State} (h : step s = .next t) : runState (n + 1) s = runState n t := by
  rw [runState, stepCommand_next h]

/-- Settles O23, by induction on the number of steps: the first pair is the first step's, and the others are those of
the run after it. -/
theorem snapshotPairsComeInStepOrder : Obligations.SnapshotPairsComeInStepOrder := by
  intro n
  induction n with
  | zero => exact fun s _ => ⟨rfl, fun k hk => absurd hk k.not_lt_zero⟩
  | succ n ih =>
    intro s ⟨u, hu⟩
    obtain ⟨t, hstep, hrun⟩ := step_of_run_succ hu
    obtain ⟨hlen, hpairs⟩ := ih t ⟨u, hrun⟩
    rw [runOutputs_succ hstep]
    refine ⟨by rw [List.length_cons, List.length_cons, hlen, Nat.mul_succ], fun k hk => ?_⟩
    rw [runState_succ hstep]
    cases k with
    | zero => exact ⟨rfl, rfl⟩
    | succ k => exact hpairs k (Nat.lt_of_succ_lt_succ hk)

end Sys2Proof.Machine

/-! # Proofs about the negative and the carry bit -/

namespace Sys2Proof.Machine

/-- No instruction but `CLD` changes the negative bit on its own. -/
theorem flagN_ownFlags {i : Instr} (hi : i ≠ .cld) (s : State) : flagN (ownFlags i s) = flagN s.flags := by
  cases i with
  | cmp v => exact assignCarry_getLsbD _ _ 7
  | clc => exact flagN_clearCarry _
  | cld => exact absurd rfl hi
  | _ => rfl

/-- No instruction but `CMP #` and `CLC` changes the carry bit on its own. -/
theorem flagC_ownFlags {i : Instr} (hcmp : ∀ v, i ≠ .cmp v) (hclc : i ≠ .clc) (s : State) :
    flagC (ownFlags i s) = flagC s.flags := by
  cases i with
  | cmp v => exact absurd rfl (hcmp v)
  | clc => exact absurd rfl hclc
  | cld => exact flagC_clearDecimal _
  | _ => rfl

/-- The shared flag rule leaves the carry, so an instruction's own change of it is the whole one. -/
theorem exec_flagC {i : Instr} {s t : State} (h : exec i s = .next t) : flagC t.flags = flagC (ownFlags i s) := by
  rw [exec_flags h]
  cases flagValue i s with
  | none => rfl
  | some v => exact flagC_applyFlags _ v

/-- Settles O28: the shared rule sets the negative bit and never clears it. -/
theorem negativeFlagIsSticky : Obligations.NegativeFlagIsSticky := by
  intro i s t h
  rw [exec_flags h]
  constructor
  · rintro rfl
    exact flagN_clearDecimal s.flags
  · intro hi
    cases flagValue i s with
    | none => simp [flagN_ownFlags hi]
    | some v => simp [flagN_ownFlags hi, flagN_iff]

/-- Settles O29: the carry after an instruction is the one its own change gives. -/
theorem carryIsTouchedOnlyByCompareAndClear : Obligations.CarryIsTouchedOnlyByCompareAndClear := by
  intro i s t h
  rw [exec_flagC h]
  refine ⟨?_, ?_, fun hcmp hclc => flagC_ownFlags hcmp hclc s⟩
  · rintro v rfl
    have hcarry : flagC (ownFlags (.cmp v) s) = decide (v.toNat < s.regA.toNat) := assignCarry_getLsbD _ _ 0
    rw [hcarry, decide_eq_true_iff]
  · rintro rfl
    exact flagC_clearCarry s.flags

end Sys2Proof.Machine

/-! # Proofs about what no instruction reads: the clock and the diagnostic text -/

namespace Sys2Proof.Machine

/-- The state with its clock shifted and its diagnostic text replaced: the two fields no handler reads. -/
def State.reviseUnread (d : ClockWord) (newText : String → String) (s : State) : State :=
  { s with clock := s.clock + d, lastInfo := newText s.lastInfo }

theorem State.reviseUnread_tick (s : State) (op : Byte) (d : ClockWord) (newText : String → String) :
    (s.tick op).reviseUnread d newText = (s.reviseUnread d newText).tick op := by
  simp [State.tick, State.reviseUnread, add_right_comm]

theorem State.reviseUnread_branch (s : State) (op : Byte) (taken : Bool) (off : Byte) (d : ClockWord)
    (newText : String → String) :
    (s.branch op taken off).reviseUnread d newText = (s.reviseUnread d newText).branch op taken off := by
  cases taken <;> exact State.reviseUnread_tick ..

/-- A handler carries the text along and adds to the clock, and reads neither, so it commutes with their revision
(10 R22, R23). -/
theorem mapNext_reviseUnread_exec (i : Instr) (s : State) (d : ClockWord) (newText : String → String) :
    mapNext (State.reviseUnread d newText) (exec i s) = exec i (s.reviseUnread d newText) := by
  cases i with
  | ldaAbs ea =>
    rcases Nat.lt_or_ge (dataAddress ea) s.mem.size with hin | hout
    · rw [exec_ldaAbs_in hin, exec_ldaAbs_in (s := s.reviseUnread d newText) hin]
      exact congrArg Host.Outcome.next (State.reviseUnread_tick ..)
    · rw [exec_ldaAbs_out hout, exec_ldaAbs_out (s := s.reviseUnread d newText) hout]
      rfl
  | sta ea =>
    rcases Nat.lt_or_ge (dataAddress ea) s.mem.size with hin | hout
    · rw [exec_sta_in hin, exec_sta_in (s := s.reviseUnread d newText) hin]
      exact congrArg Host.Outcome.next (State.reviseUnread_tick ..)
    · rw [exec_sta_out hout, exec_sta_out (s := s.reviseUnread d newText) hout]
      rfl
  | bpl _ | bne _ | beq _ => exact congrArg Host.Outcome.next (State.reviseUnread_branch ..)
  | _ => exact congrArg Host.Outcome.next (State.reviseUnread_tick ..)

/-- Settles O31: another clock value is a shifted clock, and the text stays as it is. -/
theorem clockInfluencesNothing : Obligations.ClockInfluencesNothing := by
  intro i s c
  have hshift : { s with clock := c } = s.reviseUnread (c - s.clock) id := by
    simp [State.reviseUnread]
  rw [hshift]
  exact (mapNext_reviseUnread_exec i s (c - s.clock) id).symm

/-- The state with another diagnostic text. -/
def State.setInfo (text : String) (s : State) : State := { s with lastInfo := text }

theorem State.reviseUnread_zero_const (text : String) : State.reviseUnread 0 (fun _ => text) = State.setInfo text := by
  funext s
  simp [State.reviseUnread, State.setInfo]

theorem exec_setInfo (i : Instr) (s : State) (text : String) :
    exec i (s.setInfo text) = mapNext (State.setInfo text) (exec i s) := by
  rw [← State.reviseUnread_zero_const]
  exact (mapNext_reviseUnread_exec i s 0 fun _ => text).symm

/-- The bytes read depend on Memory alone. -/
theorem readBytes_congr {s t : State} (h : t.mem = s.mem) (a n : Nat) : readBytes t a n = readBytes s a n := by
  induction n generalizing a with
  | zero => rfl
  | succ n ih => simp only [readBytes, memRead_congr h, ih]

/-- The fetch depends on Memory and the pc alone. -/
theorem fetch_congr {s t : State} (hmem : t.mem = s.mem) (hpc : t.pc = s.pc) : fetch t = fetch s := by
  simp only [fetch, memRead_congr hmem, readBytes_congr hmem, hpc]

/-- Retiring an instruction replaces the text it was carried along with. -/
theorem retire_setInfo (i : Instr) (s : State) (text : String) (o : Host.Outcome State Fault Refusal) :
    retire i (s.setInfo text) (mapNext (State.setInfo text) o) = retire i s o := by
  cases o <;> rfl

/-- Settles O32: the fetch does not read the text, the handler carries it along, and retiring replaces it. -/
theorem diagnosticTextInfluencesNothing : Obligations.DiagnosticTextInfluencesNothing := by
  intro s text
  show step (s.setInfo text) = step s
  have hfetch : fetch (s.setInfo text) = fetch s := fetch_congr rfl rfl
  have hhalt : (s.setInfo text).halted = s.halted := rfl
  simp only [step, hhalt, hfetch, exec_setInfo, retire_setInfo]

end Sys2Proof.Machine

/-! # Proofs about the effects of the remaining instructions -/

namespace Sys2Proof.Machine

/-! ## The instructions with a data address -/

/-- An instruction at `pc` whose handler faults halts the engine, and that is all that changes (60 R123, R124). -/
theorem step_and_stepCommand_of_exec_fault {s : State} {i : Instr} {addr : Nat} (hrun : s.halted = false)
    (hwf : i.wf = true) (hat : BytesAt s s.pc.toNat (encode i)) (h : exec i s = .fault (.addressOutOfRange addr)) :
    step s = .fault (.addressOutOfRange addr) ∧ (stepCommand s).state = { s with halted := true } := by
  have hstep := step_of_exec_fault hrun hwf hat h
  exact ⟨hstep, congrArg Response.state (stepCommand_fault hstep)⟩

/-- Settles O35: inside Memory `LDA abs` is the load shape at `A` with the byte read as the value; outside it the
handler faults. There are two operand bytes to fetch. -/
theorem ldaAbsoluteEffect : Obligations.LdaAbsoluteEffect := by
  refine ⟨fun lo hi _ => ⟨absAddress lo hi, rfl, absAddress_toNat lo hi⟩, fun ea s hin => ?_,
    fun ea s hrun hat hout => step_and_stepCommand_of_exec_fault hrun rfl hat (exec_ldaAbs_out hout),
    fetchFaults_operandCount 0xAD⟩
  have hexec := exec_ldaAbs_in (ea := ea) hin
  exact ⟨_, _, memRead_in hin, hexec, rfl, rfl, rfl, rfl, exec_setReg_sharedRule_finish (r := .a) hexec rfl⟩

/-- Settles O38: inside Memory `STA abs` puts one byte and ends in `finish`; outside it the handler faults. There are
two operand bytes to fetch. -/
theorem staAbsoluteEffect : Obligations.StaAbsoluteEffect := by
  refine ⟨fun lo hi _ => ⟨absAddress lo hi, rfl, absAddress_toNat lo hi⟩, fun ea s hin => ⟨_, exec_sta_in hin, ?_⟩,
    fun ea s hrun hat hout => step_and_stepCommand_of_exec_fault hrun rfl hat (exec_sta_out hout),
    fetchFaults_operandCount 0x8D⟩
  exact ⟨memRead_put_same hin rfl, fun a ha => memRead_put_other rfl ha, rfl, ⟨rfl, rfl, rfl, rfl⟩, rfl,
    advancedBy_finish _ 0x8D 3, exec_tickedBy (exec_sta_in hin), exec_hidden (exec_sta_in hin)⟩

/-! ## `TAX` and `ADC #` -/

/-- `TAX` writes `A` into `X`; its two runs of the shared flag rule do what one does (42 R95, decision D25). -/
theorem exec_tax (s : State) :
    exec .tax s = .next (((s.setReg .x s.regA).sharedRule s.regA).finish 0xAA 1) :=
  congrArg (fun f => Host.Outcome.next (((s.setX s.regA).setFlags f).finish 0xAA 1)) (applyFlags_idem s.flags s.regA)

/-- Settles O39: `TAX` is the load shape at `X` with the value `A`, and no operand byte to fetch. -/
theorem taxEffect : Obligations.TaxEffect := by
  refine ⟨fun _ => rfl, fun s => ⟨_, exec_tax s, ?_⟩, fetchFaults_operandCount 0xAA⟩
  exact ⟨rfl, rfl, rfl, rfl, exec_setReg_sharedRule_finish (exec_tax s) rfl⟩

/-- `ADC #` writes the wrapped sum into `A` and runs the shared flag rule on it (43 R100). -/
theorem exec_adc (v : Byte) (s : State) :
    exec (.adc v) s = .next (((s.setReg .a (s.regA + v)).sharedRule (s.regA + v)).finish 0x69 2) := rfl

/-- Settles O42: `ADC #` is the load shape at `A` with the wrapped sum as the value, and one operand byte to fetch. -/
theorem adcImmediateEffect : Obligations.AdcImmediateEffect := by
  refine ⟨fun _ _ => rfl, fun v s => ⟨_, exec_adc v s, ?_⟩, fetchFaults_operandCount 0x69⟩
  exact ⟨BitVec.toNat_add s.regA v, rfl, rfl, rfl, exec_setReg_sharedRule_finish (exec_adc v s) rfl⟩

/-! ## `CMP #` and `CLD`: the flags alone, then `finish` -/

/-- An instruction that writes the flags and ends in `finish` changes the flags, the pc and the clock, and nothing
else. -/
theorem exec_setFlags_finish {i : Instr} {s t : State} {f : Byte} {n : Nat} (h : exec i s = .next t)
    (ht : t = (s.setFlags f).finish (opcodeOf i) n) :
    AdvancedBy n s t ∧ TickedBy (opcodeOf i) s t ∧ SameMemory s t ∧ SameHidden s t := by
  have hpc : AdvancedBy n s t := by simp [AdvancedBy, ht]
  have hmem : t.mem = s.mem := by simp [ht]
  exact ⟨hpc, exec_tickedBy h, .of_mem_eq hmem, exec_hidden h⟩

theorem exec_cmp (v : Byte) (s : State) :
    exec (.cmp v) s = .next ((s.setFlags (compareFlags s.flags s.regA v)).finish 0xC9 2) := rfl

theorem exec_cld (s : State) : exec .cld s = .next ((s.setFlags (clearDecimal s.flags)).finish 0xD8 1) := rfl

/-- The flags of a compare in numbers: the strict carry, equality, the wrapped difference's bit 7 made sticky, and the
unused bits as they were (43 R102). -/
theorem compareFlags_bits (f a v : Byte) :
    ((compareFlags f a v).getLsbD 0 = true ↔ v.toNat < a.toNat) ∧
    ((compareFlags f a v).getLsbD 1 = true ↔ a = v) ∧
    ((compareFlags f a v).getLsbD 7 = true ↔ 128 ≤ (a.toNat + 256 - v.toNat) % 256 ∨ f.getLsbD 7 = true) ∧
    ∀ k, 2 ≤ k → k ≤ 6 → (compareFlags f a v).getLsbD k = f.getLsbD k := by
  have hdiff : (a - v).toNat = (a.toNat + 256 - v.toNat) % 256 := by
    rw [← ofNat_toNat_sub_toNat, BitVec.toNat_ofNat]
  refine ⟨?_, ?_, ?_, fun k hlow hhigh => ?_⟩
  · rw [compareFlags_getLsbD, if_neg (by decide), if_neg (by decide), if_pos rfl, decide_eq_true_iff]
  · rw [compareFlags_getLsbD, if_pos rfl, decide_eq_true_iff]
    exact sub_eq_zero
  · rw [compareFlags_getLsbD, if_neg (by decide), if_pos rfl, Bool.or_eq_true, getLsbD_seven_iff (a - v), hdiff,
      or_comm]
  · rw [compareFlags_getLsbD, if_neg (by omega), if_neg (by omega), if_neg (by omega)]

/-- Settles O44: `CMP #` writes the flags of the compare alone before `finish`, with one operand byte to fetch. -/
theorem cmpImmediateEffect : Obligations.CmpImmediateEffect := by
  refine ⟨fun _ _ => rfl, fun v s => ⟨_, exec_cmp v s, ⟨rfl, rfl, rfl, rfl⟩, ?_⟩, fetchFaults_operandCount 0xC9⟩
  obtain ⟨hcarry, hzero, hnegative, hunused⟩ := compareFlags_bits s.flags s.regA v
  exact ⟨hcarry, hzero, hnegative, hunused, exec_setFlags_finish (exec_cmp v s) rfl⟩

/-- Settles O48: `CLD` writes the flags alone before `finish`, its mask keeps the two lowest bits, and there is no
operand byte to fetch. -/
theorem cldEffect : Obligations.CldEffect := by
  refine ⟨fun _ => rfl, fun s => ⟨_, exec_cld s, ⟨rfl, rfl, rfl, rfl⟩, ?_⟩, fetchFaults_operandCount 0xD8⟩
  have hcleared (k : Nat) (hk : 2 ≤ k) : (clearDecimal s.flags).getLsbD k = false := by
    rw [clearDecimal_getLsbD, if_neg hk.not_gt]
  have hkept (k : Nat) (hk : k < 2) : (clearDecimal s.flags).getLsbD k = s.flags.getLsbD k := by
    rw [clearDecimal_getLsbD, if_pos hk]
  exact ⟨hcleared, hkept, exec_setFlags_finish (exec_cld s) rfl⟩

/-! ## `JMP abs` -/

/-- `JMP abs` writes its address into the pc unchecked (45 R113). -/
theorem exec_jmp (ea : Addr) (s : State) : exec (.jmp ea) s = .next ((s.setPc ea).tick 0x4C) := rfl

/-- Settles O52: `JMP abs` writes the pc and the clock alone; a target outside Memory fails the next opcode fetch. -/
theorem jmpAbsoluteEffect : Obligations.JmpAbsoluteEffect := by
  refine ⟨fun lo hi _ => ⟨absAddress lo hi, rfl, absAddress_toNat lo hi⟩, fun ea s => ⟨_, exec_jmp ea s, ?_⟩,
    fetchFaults_operandCount 0x4C⟩
  have hnext (hrun : s.halted = false) (hout : s.mem.size ≤ ea.toNat) :
      step ((s.setPc ea).tick 0x4C) = .fault (.addressOutOfRange ea.toNat) :=
    step_fetch_fault hrun (fetch_out (s := (s.setPc ea).tick 0x4C) hout)
  exact ⟨rfl, ⟨rfl, rfl, rfl, rfl⟩, rfl, exec_tickedBy (exec_jmp ea s), .of_mem_eq rfl, exec_hidden (exec_jmp ea s),
    hnext⟩

end Sys2Proof.Machine
